-- ==== Sys2Proof/Word.lean ====
section
/-! DEFINITION. The word types of the machine (spec/00_scope.md section 6, spec/10_state.md).
Every stored value is unsigned; nothing here is signed. -/

namespace Sys2Proof

/-- A byte: a general register, a timer, a memory byte. -/
abbrev Byte := BitVec 8

/-- An Address: 16 bits, of which only the values 0x000..0xFFF name a byte (R12, R13, R30). -/
abbrev Addr := BitVec 16

/-- An instruction word (R50). -/
abbrev Word := BitVec 16

/-- A general register's index, 0..15 (R10): the value of an `x` or `y` field. -/
abbrev Reg := Fin 16

/-- A key's index, 0..15 (R24). -/
abbrev KeyIndex := Fin 16

end Sys2Proof
end

