-- ==== Sys2Proof/Syntax.lean ====
section
/-! DEFINITION. The instructions (R55: a closed type with exactly 34 variants, one per row of the
opcode table, each carrying its fields at their encoded widths) and the host's transactions
(R150 to R160). -/

namespace Sys2Proof

/-- An operation (R55), in the order of the opcode table of R54. -/
inductive Instr where
  | clear                                   -- 00E0
  | ret                                     -- 00EE
  | jump (nnn : BitVec 12)                  -- 1nnn
  | call (nnn : BitVec 12)                  -- 2nnn
  | skipEq (x : Reg) (kk : Byte)            -- 3xkk
  | skipNeq (x : Reg) (kk : Byte)           -- 4xkk
  | skipEqReg (x y : Reg)                   -- 5xy0
  | load (x : Reg) (kk : Byte)              -- 6xkk
  | addImm (x : Reg) (kk : Byte)            -- 7xkk
  | move (x y : Reg)                        -- 8xy0
  | orReg (x y : Reg)                       -- 8xy1
  | andReg (x y : Reg)                      -- 8xy2
  | xorReg (x y : Reg)                      -- 8xy3
  | addReg (x y : Reg)                      -- 8xy4
  | subReg (x y : Reg)                      -- 8xy5
  | shiftRight (x y : Reg)                  -- 8xy6
  | subRegRev (x y : Reg)                   -- 8xy7
  | shiftLeft (x y : Reg)                   -- 8xyE
  | skipNeqReg (x y : Reg)                  -- 9xy0
  | loadI (nnn : BitVec 12)                 -- Annn
  | jumpOffset (nnn : BitVec 12)            -- Bnnn
  | random (x : Reg) (kk : Byte)            -- Cxkk
  | draw (x y : Reg) (n : BitVec 4)         -- Dxyn
  | skipKeyDown (x : Reg)                   -- Ex9E
  | skipKeyUp (x : Reg)                     -- ExA1
  | getDelay (x : Reg)                      -- Fx07
  | waitKey (x : Reg)                       -- Fx0A
  | setDelay (x : Reg)                      -- Fx15
  | setSound (x : Reg)                      -- Fx18
  | addToI (x : Reg)                        -- Fx1E
  | fontAddr (x : Reg)                      -- Fx29
  | toBCD (x : Reg)                         -- Fx33
  | storeRegs (x : Reg)                     -- Fx55
  | loadRegs (x : Reg)                      -- Fx65
  deriving DecidableEq, Repr

/-- A host transaction (R151 to R157, R159). -/
inductive Transaction where
  /-- Reset (R151, R190). -/
  | reset
  /-- InstallFont(base) (R153). -/
  | installFont (base : Addr)
  /-- LoadProgram(bytes) (R152). -/
  | loadProgram (bytes : List Byte)
  /-- Tick (R154). -/
  | tick
  /-- KeyDown(i) (R155). -/
  | keyDown (i : KeyIndex)
  /-- KeyUp(i) (R156). -/
  | keyUp (i : KeyIndex)
  /-- Get(X, Y) (R157). -/
  | get (X Y : Nat)
  /-- A read of the status outputs (R159). -/
  | readStatus
  deriving DecidableEq, Repr

/-- One move of the host at an instruction boundary: it permits one instruction step (R160) or it
issues a transaction (R150). -/
inductive HostMove where
  | permitStep
  | issue (t : Transaction)
  deriving DecidableEq, Repr, Inhabited

/-- How the host's moves go on, for ever, when the listed ones are made (R140, R197). -/
inductive HostTail where
  /-- `first` and then `others`, over and over. With no others and a permission first it is the source's
  `run`; with a Tick between permissions it is a run with infinitely many Ticks. -/
  | repeats (first : HostMove) (others : List HostMove)
  /-- Open: the moves `Config.hostMove k`, `Config.hostMove (k+1)`, .., of which nothing is known. -/
  | free (k : Nat)
  deriving DecidableEq, Repr

/-- An infinite sequence of moves as plain data: the listed ones, the next first, then the tail. -/
structure HostPlan where
  listed : List HostMove
  tail : HostTail
  deriving DecidableEq, Repr

/-- The host goes on permitting steps: the source's `run` (R140). -/
def HostPlan.run : HostPlan := ⟨[], .repeats .permitStep []⟩

end Sys2Proof
end

