-- ==== Sys2Proof/Config.lean ====
section
/-! DEFINITION. What is fixed for the machine and what the spec leaves open: the parameters of
spec/00_scope.md section 4 and the two free values, the random byte of R158 and the moves of a host
of which nothing is known. -/

namespace Sys2Proof.Config

/-- MEM_SIZE (R19). -/
abbrev memSize : Nat := 4096

/-- PROGRAM_BASE: where LoadProgram writes (R152). -/
abbrev programBase : Nat := 0x200

/-- The longest program LoadProgram accepts (R152). -/
abbrev maxProgram : Nat := 3584

/-- The highest base InstallFont accepts (R153). -/
abbrev maxFontBase : Nat := 0x0FB0

/-- The highest `pc` a word can be fetched from (R132, R173). -/
abbrev lastFetchPc : Nat := 0x0FFE

/-- The default of STACK_DEPTH (R14, R15; PRESUMED by the spec itself in D4, log entry 9). -/
abbrev defaultStackDepth : Nat := 16

/-- Display width in pixels (R23). -/
abbrev displayWidth : Nat := 64

/-- Display height in pixels (R23). -/
abbrev displayHeight : Nat := 32

/-- The bytes of the font table (R21). -/
abbrev fontBytes : Nat := 80

/-- What a byte of memory reads as when nothing has written it: the reset content of R19 and R40. -/
abbrev unwrittenByte : Byte := 0x00#8

/-- The free values of R158: `randomByte k` is the byte the random source presents to the execution
of Random number `k`. It has no body: nothing can be proved of it (log entry 2). -/
opaque randomByte : Nat → Byte

/-- The free moves of R140 and R197: `hostMove k` is move number `k` of a host whose schedule is open. It
has no body: nothing can be proved of it, so a claim about a host that makes these moves holds for every
infinite sequence of moves (log entry 3). -/
opaque hostMove : Nat → HostMove

/-- The parameters the spec leaves open by name (D2, D4, D14, D11). A state carries them, so that a
statement about every state holds for every value of them (log entry 1). -/
structure Params where
  /-- RESET_PC (R12, D2). -/
  resetPC : Addr
  /-- STACK_DEPTH: how many frames the call stack holds, at least 1 (R14, R15, D4). -/
  stackDepth : Nat
  /-- FONT_ROM: the 80 bytes InstallFont copies (R22, D14). -/
  fontRom : Vector Byte fontBytes
  /-- DRAW_WRITES_VF: whether Draw writes the collision signal to VF (R110, D11). -/
  drawWritesVF : Bool
  deriving DecidableEq, Repr

/-- The glyphs of the default FONT_ROM, one list of five rows per digit (the table of R22;
PRESUMED: the spec marks it general knowledge, log entry 8). -/
def defaultGlyphs : List (List Byte) :=
  [[0xF0, 0x90, 0x90, 0x90, 0xF0],
   [0x20, 0x60, 0x20, 0x20, 0x70],
   [0xF0, 0x10, 0xF0, 0x80, 0xF0],
   [0xF0, 0x10, 0xF0, 0x10, 0xF0],
   [0x90, 0x90, 0xF0, 0x10, 0x10],
   [0xF0, 0x80, 0xF0, 0x10, 0xF0],
   [0xF0, 0x80, 0xF0, 0x90, 0xF0],
   [0xF0, 0x10, 0x20, 0x40, 0x40]] ++
  [[0xF0, 0x90, 0xF0, 0x90, 0xF0],
   [0xF0, 0x90, 0xF0, 0x10, 0xF0],
   [0xF0, 0x90, 0xF0, 0x90, 0x90],
   [0xE0, 0x90, 0xE0, 0x90, 0xE0],
   [0xF0, 0x80, 0x80, 0x80, 0xF0],
   [0xE0, 0x90, 0x90, 0x90, 0xE0],
   [0xF0, 0x80, 0xF0, 0x80, 0xF0],
   [0xF0, 0x80, 0xF0, 0x80, 0x80]]

/-- The default FONT_ROM (R22). -/
def defaultFontRom : Vector Byte fontBytes :=
  ⟨defaultGlyphs.flatten.toArray, by decide⟩

/-- The parameter set of the spec's defaults (00_scope.md section 4). -/
def defaultParams : Params :=
  { resetPC := 0x0200#16, stackDepth := defaultStackDepth, fontRom := defaultFontRom, drawWritesVF := true }

end Sys2Proof.Config
end

