-- ==== Sys2Proof/WellFormed.lean ====
section
/-! DEFINITION. Well-formedness of an operation and of a host transaction.

R55: every field of an operation has its encoded width, so that an out-of-range operation cannot be
written down. The three field checks say which numbers a field can hold; on an operation they always
succeed (`Instr.wellFormed_always` in Laws/Encoding.lean). The two transaction checks are the bounds
beyond which the host's transaction is refused (R152, R153). -/

namespace Sys2Proof

/-- The numbers a 4-bit field can hold (`x`, `y`, `n`; R51). -/
def fitsNibble (v : Nat) : Bool := v < 16

/-- The numbers an 8-bit field can hold (`kk`; R51). -/
def fitsByte (v : Nat) : Bool := v < 256

/-- The numbers a 12-bit field can hold (`nnn`; R51). -/
def fitsAddress12 (v : Nat) : Bool := v < 4096

/-- Every field of the operation fits its encoded width (R55). -/
def Instr.wellFormed : Instr → Bool
  | .clear | .ret => true
  | .jump nnn | .call nnn | .loadI nnn | .jumpOffset nnn => fitsAddress12 nnn.toNat
  | .skipEq x kk | .skipNeq x kk | .load x kk | .addImm x kk | .random x kk =>
    fitsNibble x.val && fitsByte kk.toNat
  | .skipEqReg x y | .skipNeqReg x y | .move x y | .orReg x y | .andReg x y | .xorReg x y
  | .addReg x y | .subReg x y | .shiftRight x y | .subRegRev x y | .shiftLeft x y =>
    fitsNibble x.val && fitsNibble y.val
  | .draw x y n => fitsNibble x.val && fitsNibble y.val && fitsNibble n.toNat
  | .skipKeyDown x | .skipKeyUp x | .getDelay x | .waitKey x | .setDelay x | .setSound x
  | .addToI x | .fontAddr x | .toBCD x | .storeRegs x | .loadRegs x => fitsNibble x.val

/-- InstallFont's bound: `base + 79 <= 0x0FFF` (R153). -/
def fontBaseFits (base : Addr) : Bool := base.toNat ≤ Config.maxFontBase

/-- LoadProgram's bound: `len <= 3584` (R152). -/
def programFits (bytes : List Byte) : Bool := bytes.length ≤ Config.maxProgram

/-- The transaction is within its bounds (R152, R153); the others have none. -/
def Transaction.wellFormed : Transaction → Bool
  | .installFont base => fontBaseFits base
  | .loadProgram bytes => programFits bytes
  | .reset | .tick | .keyDown _ | .keyUp _ | .get _ _ | .readStatus => true

end Sys2Proof
end

