-- ==== Sys2Proof/Decode.lean ====
section
/-! DEFINITION. The opcode codec (spec/30_encoding.md): the fields of a word (R51), the decoder as
the algorithm of R63, the decoder on bytes, the opcode table of R54 with the decoder it defines, and
the encoder of R56. -/

namespace Sys2Proof

/-! ### Fields of a word (R51) -/

/-- `t = w[15:12]`, the family. -/
def fieldT (w : Word) : BitVec 4 := w.extractLsb' 12 4

/-- `x = w[11:8]`. -/
def fieldX (w : Word) : Reg := (w.extractLsb' 8 4).toFin

/-- `y = w[7:4]`. -/
def fieldY (w : Word) : Reg := (w.extractLsb' 4 4).toFin

/-- `n = w[3:0]`. -/
def fieldN (w : Word) : BitVec 4 := w.extractLsb' 0 4

/-- `kk = w[7:0]`. -/
def fieldKK (w : Word) : Byte := w.extractLsb' 0 8

/-- `nnn = w[11:0]`. -/
def fieldNNN (w : Word) : BitVec 12 := w.extractLsb' 0 12

/-! ### The decoder (R54, in the form of R63) -/

/-- Family 0x0: the whole word decides. -/
def decodeFamily0 (w : Word) : Option Instr :=
  if w = 0x00E0#16 then some .clear
  else if w = 0x00EE#16 then some .ret
  else none

/-- Family 0x8: the low nibble decides. -/
def decodeFamily8 (w : Word) : Option Instr :=
  let x := fieldX w
  let y := fieldY w
  match fieldN w with
  | 0x0#4 => some (.move x y)
  | 0x1#4 => some (.orReg x y)
  | 0x2#4 => some (.andReg x y)
  | 0x3#4 => some (.xorReg x y)
  | 0x4#4 => some (.addReg x y)
  | 0x5#4 => some (.subReg x y)
  | 0x6#4 => some (.shiftRight x y)
  | 0x7#4 => some (.subRegRev x y)
  | 0xE#4 => some (.shiftLeft x y)
  | _ => none

/-- Family 0xE: the low byte decides. -/
def decodeFamilyE (w : Word) : Option Instr :=
  match fieldKK w with
  | 0x9E#8 => some (.skipKeyDown (fieldX w))
  | 0xA1#8 => some (.skipKeyUp (fieldX w))
  | _ => none

/-- Family 0xF: the low byte decides. -/
def decodeFamilyF (w : Word) : Option Instr :=
  let x := fieldX w
  match fieldKK w with
  | 0x07#8 => some (.getDelay x)
  | 0x0A#8 => some (.waitKey x)
  | 0x15#8 => some (.setDelay x)
  | 0x18#8 => some (.setSound x)
  | 0x1E#8 => some (.addToI x)
  | 0x29#8 => some (.fontAddr x)
  | 0x33#8 => some (.toBCD x)
  | 0x55#8 => some (.storeRegs x)
  | 0x65#8 => some (.loadRegs x)
  | _ => none

/-- `decode(w)`: the operation the word spells, or `none` (R54, R58, R63). -/
def decode (w : Word) : Option Instr :=
  match fieldT w with
  | 0x0#4 => decodeFamily0 w
  | 0x1#4 => some (.jump (fieldNNN w))
  | 0x2#4 => some (.call (fieldNNN w))
  | 0x3#4 => some (.skipEq (fieldX w) (fieldKK w))
  | 0x4#4 => some (.skipNeq (fieldX w) (fieldKK w))
  | 0x5#4 => if fieldN w = 0x0#4 then some (.skipEqReg (fieldX w) (fieldY w)) else none
  | 0x6#4 => some (.load (fieldX w) (fieldKK w))
  | 0x7#4 => some (.addImm (fieldX w) (fieldKK w))
  | 0x8#4 => decodeFamily8 w
  | 0x9#4 => if fieldN w = 0x0#4 then some (.skipNeqReg (fieldX w) (fieldY w)) else none
  | 0xA#4 => some (.loadI (fieldNNN w))
  | 0xB#4 => some (.jumpOffset (fieldNNN w))
  | 0xC#4 => some (.random (fieldX w) (fieldKK w))
  | 0xD#4 => some (.draw (fieldX w) (fieldY w) (fieldN w))
  | 0xE#4 => decodeFamilyE w
  | _ => decodeFamilyF w

/-! ### The decoder on bytes -/

/-- Why bytes are no instruction. -/
inductive DecodeError where
  /-- Fewer than the two bytes every instruction has (R50). -/
  | truncated
  /-- The word matches no row of the opcode table (R58): the sole decode failure of a word. -/
  | noRow (w : Word)
  deriving DecidableEq, Repr

/-- The word two bytes spell, the first one the high byte (R33). -/
def wordOfBytes (hi lo : Byte) : Word := hi ++ lo

/-- The two bytes of a word in memory order, the high byte first (R33). -/
def bytesOfWord (w : Word) : List Byte := [w.extractLsb' 8 8, w.extractLsb' 0 8]

/-- The instruction at the head of a byte sequence and the bytes after it, or the reason there is
none. -/
def decodeBytes : List Byte → Except DecodeError (Instr × List Byte)
  | hi :: lo :: rest =>
    match decode (wordOfBytes hi lo) with
    | some i => .ok (i, rest)
    | none => .error (.noRow (wordOfBytes hi lo))
  | [_] | [] => .error .truncated

/-- The word of a row of spec/opcode_table.json: bit 0 of `w` is the least significant bit of the
instruction word, and the bits from `nbits` up are 0. -/
def tableWord (nbits w : Nat) : Word := BitVec.ofNat 16 (w % 2 ^ nbits)

/-- What the decoder reads from the bytes of `tableWord nbits w`. -/
def decodeTableWord (nbits w : Nat) : Option Instr :=
  match decodeBytes (bytesOfWord (tableWord nbits w)) with
  | .ok (i, _) => some i
  | .error _ => none

/-! ### The opcode table (R54) and the decoder it defines -/

/-- A row of the opcode table: a word is the row's when `(w & mask) = bits` (R52). -/
structure OpRow where
  bits : Word
  mask : Word
  operation : Word → Instr

/-- Whether a word is the row's. -/
def OpRow.matches (r : OpRow) (w : Word) : Bool := w &&& r.mask == r.bits

def rowsFix : List OpRow :=
  [⟨0x00E0, 0xFFFF, fun _ => .clear⟩,
   ⟨0x00EE, 0xFFFF, fun _ => .ret⟩]

def rowsImmediate : List OpRow :=
  [⟨0x1000, 0xF000, fun w => .jump (fieldNNN w)⟩,
   ⟨0x2000, 0xF000, fun w => .call (fieldNNN w)⟩,
   ⟨0x3000, 0xF000, fun w => .skipEq (fieldX w) (fieldKK w)⟩,
   ⟨0x4000, 0xF000, fun w => .skipNeq (fieldX w) (fieldKK w)⟩,
   ⟨0x5000, 0xF00F, fun w => .skipEqReg (fieldX w) (fieldY w)⟩,
   ⟨0x6000, 0xF000, fun w => .load (fieldX w) (fieldKK w)⟩,
   ⟨0x7000, 0xF000, fun w => .addImm (fieldX w) (fieldKK w)⟩]

def rowsAlu : List OpRow :=
  [⟨0x8000, 0xF00F, fun w => .move (fieldX w) (fieldY w)⟩,
   ⟨0x8001, 0xF00F, fun w => .orReg (fieldX w) (fieldY w)⟩,
   ⟨0x8002, 0xF00F, fun w => .andReg (fieldX w) (fieldY w)⟩,
   ⟨0x8003, 0xF00F, fun w => .xorReg (fieldX w) (fieldY w)⟩,
   ⟨0x8004, 0xF00F, fun w => .addReg (fieldX w) (fieldY w)⟩,
   ⟨0x8005, 0xF00F, fun w => .subReg (fieldX w) (fieldY w)⟩,
   ⟨0x8006, 0xF00F, fun w => .shiftRight (fieldX w) (fieldY w)⟩,
   ⟨0x8007, 0xF00F, fun w => .subRegRev (fieldX w) (fieldY w)⟩,
   ⟨0x800E, 0xF00F, fun w => .shiftLeft (fieldX w) (fieldY w)⟩]

def rowsIndexAndDraw : List OpRow :=
  [⟨0x9000, 0xF00F, fun w => .skipNeqReg (fieldX w) (fieldY w)⟩,
   ⟨0xA000, 0xF000, fun w => .loadI (fieldNNN w)⟩,
   ⟨0xB000, 0xF000, fun w => .jumpOffset (fieldNNN w)⟩,
   ⟨0xC000, 0xF000, fun w => .random (fieldX w) (fieldKK w)⟩,
   ⟨0xD000, 0xF000, fun w => .draw (fieldX w) (fieldY w) (fieldN w)⟩]

def rowsKeyAndMisc : List OpRow :=
  [⟨0xE09E, 0xF0FF, fun w => .skipKeyDown (fieldX w)⟩,
   ⟨0xE0A1, 0xF0FF, fun w => .skipKeyUp (fieldX w)⟩,
   ⟨0xF007, 0xF0FF, fun w => .getDelay (fieldX w)⟩,
   ⟨0xF00A, 0xF0FF, fun w => .waitKey (fieldX w)⟩,
   ⟨0xF015, 0xF0FF, fun w => .setDelay (fieldX w)⟩,
   ⟨0xF018, 0xF0FF, fun w => .setSound (fieldX w)⟩,
   ⟨0xF01E, 0xF0FF, fun w => .addToI (fieldX w)⟩,
   ⟨0xF029, 0xF0FF, fun w => .fontAddr (fieldX w)⟩,
   ⟨0xF033, 0xF0FF, fun w => .toBCD (fieldX w)⟩,
   ⟨0xF055, 0xF0FF, fun w => .storeRegs (fieldX w)⟩,
   ⟨0xF065, 0xF0FF, fun w => .loadRegs (fieldX w)⟩]

/-- The 34 rows of R54, in the table's order. -/
def opcodeTable : List OpRow :=
  rowsFix ++ rowsImmediate ++ rowsAlu ++ rowsIndexAndDraw ++ rowsKeyAndMisc

/-- The decoder as R54 words it: the operation of the row the word matches. -/
def decodeByTable (w : Word) : Option Instr :=
  (opcodeTable.find? (fun r => r.matches w)).map (fun r => r.operation w)

/-! ### The encoder (R56) -/

/-- `nnn` at bits 11..0. -/
def placeNNN (nnn : BitVec 12) : Word := nnn.setWidth 16

/-- `x` at bits 11..8. -/
def placeX (x : Reg) : Word := (BitVec.ofFin (w := 4) x).setWidth 16 <<< 8

/-- `y` at bits 7..4. -/
def placeY (y : Reg) : Word := (BitVec.ofFin (w := 4) y).setWidth 16 <<< 4

/-- `n` at bits 3..0. -/
def placeN (n : BitVec 4) : Word := n.setWidth 16

/-- `kk` at bits 7..0. -/
def placeKK (kk : Byte) : Word := kk.setWidth 16

/-- `encode(op) = match(op) | place(fields(op))` (R56), the match values those of R54. -/
def encode : Instr → Word
  | .clear => 0x00E0#16
  | .ret => 0x00EE#16
  | .jump nnn => 0x1000#16 ||| placeNNN nnn
  | .call nnn => 0x2000#16 ||| placeNNN nnn
  | .skipEq x kk => 0x3000#16 ||| (placeX x ||| placeKK kk)
  | .skipNeq x kk => 0x4000#16 ||| (placeX x ||| placeKK kk)
  | .skipEqReg x y => 0x5000#16 ||| (placeX x ||| placeY y)
  | .load x kk => 0x6000#16 ||| (placeX x ||| placeKK kk)
  | .addImm x kk => 0x7000#16 ||| (placeX x ||| placeKK kk)
  | .move x y => 0x8000#16 ||| (placeX x ||| placeY y)
  | .orReg x y => 0x8001#16 ||| (placeX x ||| placeY y)
  | .andReg x y => 0x8002#16 ||| (placeX x ||| placeY y)
  | .xorReg x y => 0x8003#16 ||| (placeX x ||| placeY y)
  | .addReg x y => 0x8004#16 ||| (placeX x ||| placeY y)
  | .subReg x y => 0x8005#16 ||| (placeX x ||| placeY y)
  | .shiftRight x y => 0x8006#16 ||| (placeX x ||| placeY y)
  | .subRegRev x y => 0x8007#16 ||| (placeX x ||| placeY y)
  | .shiftLeft x y => 0x800E#16 ||| (placeX x ||| placeY y)
  | .skipNeqReg x y => 0x9000#16 ||| (placeX x ||| placeY y)
  | .loadI nnn => 0xA000#16 ||| placeNNN nnn
  | .jumpOffset nnn => 0xB000#16 ||| placeNNN nnn
  | .random x kk => 0xC000#16 ||| (placeX x ||| placeKK kk)
  | .draw x y n => 0xD000#16 ||| (placeX x ||| placeY y ||| placeN n)
  | .skipKeyDown x => 0xE09E#16 ||| placeX x
  | .skipKeyUp x => 0xE0A1#16 ||| placeX x
  | .getDelay x => 0xF007#16 ||| placeX x
  | .waitKey x => 0xF00A#16 ||| placeX x
  | .setDelay x => 0xF015#16 ||| placeX x
  | .setSound x => 0xF018#16 ||| placeX x
  | .addToI x => 0xF01E#16 ||| placeX x
  | .fontAddr x => 0xF029#16 ||| placeX x
  | .toBCD x => 0xF033#16 ||| placeX x
  | .storeRegs x => 0xF055#16 ||| placeX x
  | .loadRegs x => 0xF065#16 ||| placeX x

/-- An operation's bytes as memory holds them (R33). -/
def encodeBytes (i : Instr) : List Byte := bytesOfWord (encode i)

end Sys2Proof
end

