-- ==== Sys2Proof/Machine/Flags.lean ====
section
/-! DEFINITION. The flag computations (spec/41_alu.md R92, spec/43_display.md R108). VF is the only
flag of the machine (R11) and the value written to it is always 0x00 or 0x01. -/

namespace Sys2Proof.Machine

/-- A flag's value as the byte VF receives: 0x01 or 0x00 (R11). -/
def flagByte (b : Bool) : Byte := if b then 0x01#8 else 0x00#8

/-- The carry of an addition: 1 iff `a + b > 255` (R92, AddReg). -/
def carryFlag (a b : Byte) : Byte := flagByte (a.toNat + b.toNat > 255)

/-- No borrow in `a - b`: 1 iff `a >= b` (R92, SubReg and SubRegRev). -/
def noBorrowFlag (a b : Byte) : Byte := flagByte (a.toNat ≥ b.toNat)

/-- The bit a right shift by one shifts out: bit 0 (R92, ShiftRight). -/
def shiftedOutRight (a : Byte) : Byte := flagByte (a.getLsbD 0)

/-- The bit a left shift by one shifts out: bit 7 (R92, ShiftLeft). -/
def shiftedOutLeft (a : Byte) : Byte := flagByte (a.getLsbD 7)

end Sys2Proof.Machine
end

