-- ==== Sys2Proof/Machine/State.lean ====
section
/-! DEFINITION. The state of the machine as plain data: every element of the summary table of
spec/10_state.md, then the model's own fields (the open parameters, the count of random draws, the
host's plan of moves), the reasons a step can stop, and the state after reset. -/

namespace Sys2Proof.Machine

/-- Memory (R19): the bytes that differ from what an unlisted address reads as
(`Config.unwrittenByte`), addresses strictly rising. -/
abbrev Memory := List Host.Cell

/-- A row of the framebuffer: 64 pixels, index the column (R23). -/
abbrev PixelRow := Vector Bool Config.displayWidth

/-- The framebuffer (R23): `fb[r][c]`, row `r` and column `c`; `true` is a set pixel. -/
abbrev Framebuffer := Vector PixelRow Config.displayHeight

/-- The phase of the fetch-decode-execute machine (R26, R130). -/
inductive Phase where
  | ready
  | fetch
  | decode
  | execute
  | stopped
  deriving DecidableEq, Repr

/-- The 3-bit encoding of the phase (R26). -/
def Phase.code : Phase → BitVec 3
  | .ready => 0
  | .fetch => 1
  | .decode => 2
  | .execute => 3
  | .stopped => 4

/-- Why the core stopped (R27, R170). -/
inductive StopCause where
  | none
  | decodeNone
  | fetchBounds
  | dataBounds
  | stackOverflow
  | keyIndex
  deriving DecidableEq, Repr

/-- The 4-bit code of the cause (R27, R170). -/
def StopCause.code : StopCause → BitVec 4
  | .none => 0
  | .decodeNone => 1
  | .fetchBounds => 2
  | .dataBounds => 3
  | .stackOverflow => 4
  | .keyIndex => 5

/-- The state. -/
structure State where
  /-- `V[0..15]`; `VF` is `V[15]` (R10, R11). -/
  V : Vector Byte 16
  /-- The program counter (R12). -/
  pc : Addr
  /-- The address register (R13). -/
  I : Addr
  /-- The stack pointer: the count of active call frames (R14). -/
  sp : Nat
  /-- The call stack, `params.stackDepth` entries (`State.stackFits`); the entries below `sp` are live, the
  others keep their last value (R15, U25). -/
  stack : List Addr
  /-- The delay timer (R17). -/
  dt : Byte
  /-- The sound timer (R18). -/
  st : Byte
  /-- The 4096 bytes of memory (R19). -/
  mem : Memory
  /-- The recorded base of the font table (R20). -/
  fontBase : Addr
  /-- The framebuffer (R23). -/
  fb : Framebuffer
  /-- The key state; `true` is pressed (R24). -/
  K : Vector Bool 16
  /-- The most recently fetched instruction word (R25). -/
  ir : Word
  /-- Whether any fetch has completed since reset (R25). -/
  irValid : Bool
  /-- The phase (R26). -/
  phase : Phase
  /-- Why the core stopped (R27). -/
  stopCause : StopCause
  /-- The datum recorded at the stop (R27). -/
  stopInfo : Word
  /-- The model's own: the parameters the spec leaves open (log entry 1). -/
  params : Config.Params
  /-- The model's own: how many random bytes have been consumed (R158, log entry 2). -/
  randCount : Nat
  /-- The model's own: what the host does at the coming instruction boundaries, for ever (R140, R150,
  R160, R197, log entry 3). -/
  host : HostPlan
  deriving DecidableEq, Repr

/-- Why a step ends without a next state. There is no such reason: every condition that ends
execution in the spec (R170) is a stop, which is a next state in phase STOPPED. Safe: nothing raises
a fault (log entry 6). -/
inductive Fault where
  deriving DecidableEq, Repr

/-- Why an instruction has no meaning. -/
inductive Refusal where
  /-- Raised by an arm of `exec` whose instruction has no meaning yet. Safe: the machine makes no
  claim there. No arm raises it (log entry 6). -/
  | notModelled (mnemonic : String)
  deriving DecidableEq, Repr

/-- The state after reset for a parameter set (R190, R10 to R27). -/
def State.resetWith (p : Config.Params) : State where
  V := Vector.replicate 16 0
  pc := p.resetPC
  I := 0
  sp := 0
  stack := List.replicate p.stackDepth 0
  dt := 0
  st := 0
  mem := []
  fontBase := 0
  fb := Vector.replicate Config.displayHeight (Vector.replicate Config.displayWidth false)
  K := Vector.replicate 16 false
  ir := 0
  irValid := false
  phase := .ready
  stopCause := .none
  stopInfo := 0
  params := p
  randCount := 0
  host := .run

/-- The array of the call stack has STACK_DEPTH entries, and the live ones are among them (R14, R15). -/
abbrev State.stackFits (s : State) : Prop :=
  s.stack.length = s.params.stackDepth ∧ s.sp ≤ s.params.stackDepth

/-- The machine right after reset (R190), with the spec's default parameters. -/
def State.reset : State := State.resetWith Config.defaultParams

end Sys2Proof.Machine
end

