-- ==== Sys2Proof/Machine/Operands.lean ====
section
/-! DEFINITION. The operand forms (spec/30_encoding.md R53, spec/42_index_memory.md "Loads and
stores in general"): a register, an immediate zero-extended to what it is combined with, the base
`I` plus a constant offset, a run of registers, a key index held in a register. -/

namespace Sys2Proof.Machine

/-- VF is `V[15]` (R11). -/
def VF : Reg := 15

/-- V0 is `V[0]` (R10). -/
def V0 : Reg := 0

/-- The register operand `V[x]` (R10): no register is hardwired. -/
def State.readV (s : State) (x : Reg) : Byte := s.V[x]

/-- `zext_16(nnn)` (R53). -/
def zextAddress (nnn : BitVec 12) : Addr := nnn.setWidth 16

/-- `zext_16(v)` of a byte (R97, R98, R77, R176). -/
def zextByte (v : Byte) : Addr := v.setWidth 16

/-- Whether the `n` bytes at `a`, `a+1`, .., `a+n-1` all exist, the addresses unbounded naturals that
never wrap (R31, R36); an access of no byte always does (R110). -/
def accessFits (a n : Nat) : Bool := n == 0 || a + n ≤ Config.memSize

/-- The lowest out-of-range address of an access based at `I`: `max(I, 0x1000)` (R174). -/
def firstOutOfRange (base : Addr) : Word := if base.toNat < Config.memSize then 0x1000#16 else base

/-- The bytes of `V[0]` to `V[x]` inclusive, in register order (R100). -/
def State.regBytes (s : State) (x : Reg) : List Byte := s.V.toList.take (x.val + 1)

/-- The key whose index is a register's value; a value above 0x0F names no key (R116, R176). -/
def keyOperand (v : Byte) : Option KeyIndex := if h : v.toNat < 16 then some ⟨v.toNat, h⟩ else none

/-- The glyph address `font_base + 5 * digit`, the whole byte the digit (R98). -/
def glyphAddress (fontBase : Addr) (digit : Byte) : Addr := fontBase + 5#16 * zextByte digit

end Sys2Proof.Machine
end

