-- ==== Sys2Proof/Machine/Ops.lean ====
section
/-! DEFINITION. The named operations over memory, registers, the call stack, the framebuffer and the
keys that the meanings are written with, and the stop (R172), the machine's one way of taking an
exception. There is no return from a stop (R181): only the host's Reset leaves STOPPED. -/

namespace Sys2Proof.Machine

/-- What a meaning answers. -/
abbrev Out := Host.Outcome State Fault Refusal

/-! ### Memory (spec/20_memory.md) -/

/-- The byte at address `a` (R31); an address that is not listed reads as `Config.unwrittenByte`. -/
def Memory.read : Memory → Nat → Byte
  | [], _ => Config.unwrittenByte
  | (k, c) :: rest, a => if k = a then c else Memory.read rest a

/-- The entry of an address, or none where the byte is what an unlisted address reads as. -/
def Memory.entry (a : Nat) (b : Byte) : Memory := if b = Config.unwrittenByte then [] else [(a, b)]

/-- `mem[a] <- b` (R32), in canonical form. -/
def Memory.write : Memory → Nat → Byte → Memory
  | [], a, b => Memory.entry a b
  | (k, c) :: rest, a, b =>
    if a < k then Memory.entry a b ++ (k, c) :: rest
    else if a = k then Memory.entry a b ++ rest
    else (k, c) :: Memory.write rest a b

/-- `MemRead(a, n)`: the bytes at `a`, .., `a+n-1`, in that order (R31). -/
def Memory.readBytes (m : Memory) (a n : Nat) : List Byte :=
  (List.range n).map (fun k => Memory.read m (a + k))

/-- `MemWrite(a, n, v)`: the bytes of `v` at `a`, `a+1`, .., ascending (R32). -/
def Memory.writeBytes : Memory → Nat → List Byte → Memory
  | m, _, [] => m
  | m, a, b :: bs => Memory.writeBytes (Memory.write m a b) (a + 1) bs

/-- Addresses strictly rising from `lo`, all of them in the address space, no entry equal to what an
unlisted address reads as. -/
def Memory.wfFrom : Nat → Memory → Bool
  | _, [] => true
  | lo, (k, c) :: rest =>
    decide (lo ≤ k) && decide (k < Config.memSize) && decide (c ≠ Config.unwrittenByte)
      && Memory.wfFrom (k + 1) rest

/-- The canonical form of memory. -/
def Memory.wf (m : Memory) : Bool := Memory.wfFrom 0 m

/-! ### The stop (spec/60_exceptions.md) -/

/-- `raise Stop(cause, info)` (R172): these three writes and nothing more; `pc` keeps the address of
the instruction that stopped. -/
def State.raiseStop (s : State) (cause : StopCause) (info : Word) : State :=
  { s with phase := .stopped, stopCause := cause, stopInfo := info }

/-! ### Registers and the program counter (R135 to R137) -/

/-- `V[x] <- v` (R10). -/
def State.writeV (s : State) (x : Reg) (v : Byte) : State := { s with V := s.V.set x v }

/-- `I <- a` (R13). -/
def State.writeI (s : State) (a : Addr) : State := { s with I := a }

/-- `pc <- target`. -/
def State.jumpTo (s : State) (target : Addr) : State := { s with pc := target }

/-- The advance primitive: `pc <- pc + 2` (R136). -/
def State.advance (s : State) : State := s.jumpTo (s.pc + 2)

/-- The conditional-advance primitive: `pc + 4` when the predicate holds, `pc + 2` otherwise (R137). -/
def State.condAdvance (s : State) (p : Bool) : State := s.jumpTo (if p then s.pc + 4 else s.pc + 2)

/-- The result and then the flag, both computed from the old operands (R93): with `x = 0xF` the flag
is what remains. -/
def State.writeResultAndFlag (s : State) (x : Reg) (result flag : Byte) : State :=
  (s.writeV x result).writeV VF flag

/-- `V[0]`, `V[1]`, .. `<-` the bytes of a list, from register `k` up (R101). -/
def loadRegsFrom : Nat → List Byte → Vector Byte 16 → Vector Byte 16
  | _, [], V => V
  | k, b :: bs, V => loadRegsFrom (k + 1) bs (V.setIfInBounds k b)

/-! ### The call stack (R138, R139) -/

/-- Push `pc + 2`, the address after the Call, and count the frame; none when all STACK_DEPTH frames are
live (R72, R138, R175). -/
def State.pushReturn (s : State) : Option State :=
  if s.sp < s.params.stackDepth then
    some { s with stack := s.stack.set s.sp (s.pc + 2), sp := s.sp + 1 }
  else none

/-- The return primitive: pop into `pc`; nothing at all on an empty stack (R70, R139). In a state that
meets `State.stackFits` the entry is there (log entry 9). -/
def State.popReturn (s : State) : State :=
  match s.sp with
  | 0 => s
  | n + 1 =>
    match s.stack[n]? with
    | some a => { s with sp := n, pc := a }
    | none => s

/-! ### Memory through `I` (R43) -/

/-- An instruction that accesses `n` bytes from `I` up: its effect when all of them exist, else the
stop DATA_BOUNDS and no effect (R36, R174). -/
def State.withAccess (s : State) (n : Nat) (effect : State) : Out :=
  if accessFits s.I.toNat n then .next effect
  else .next (s.raiseStop .dataBounds (firstOutOfRange s.I))

/-- The `n` bytes at `I` (R31). -/
def State.readAtI (s : State) (n : Nat) : List Byte := Memory.readBytes s.mem s.I.toNat n

/-- Store bytes at `I`, `I+1`, .. (R32). -/
def State.storeAtI (s : State) (bytes : List Byte) : State :=
  { s with mem := Memory.writeBytes s.mem s.I.toNat bytes }

/-- The three decimal digits of a byte, hundreds first (R99). -/
def bcdDigits (v : Byte) : List Byte :=
  [BitVec.ofNat 8 (v.toNat / 100), BitVec.ofNat 8 (v.toNat / 10 % 10), BitVec.ofNat 8 (v.toNat % 10)]

/-! ### The framebuffer (spec/43_display.md) -/

/-- The framebuffer with every pixel unset (R109). -/
def clearedFb : Framebuffer :=
  Vector.replicate Config.displayHeight (Vector.replicate Config.displayWidth false)

/-- The pixel `(X, Y)` names: row `Y mod 32`, column `X mod 64` (R106, R111). -/
def getPixel (fb : Framebuffer) (X Y : Nat) : Bool :=
  (fb[Y % Config.displayHeight]'(Nat.mod_lt _ (by decide)))[X % Config.displayWidth]'(Nat.mod_lt _ (by decide))

/-- Give the pixel `(X, Y)` names a value (R106). -/
def setPixel (fb : Framebuffer) (X Y : Nat) (b : Bool) : Framebuffer :=
  fb.set (Y % Config.displayHeight)
    ((fb[Y % Config.displayHeight]'(Nat.mod_lt _ (by decide))).set (X % Config.displayWidth) b
      (Nat.mod_lt _ (by decide)))
    (Nat.mod_lt _ (by decide))

/-- The bit of sprite column `i`: bit 7 of the byte is column 0 (R107). -/
def spriteBit (row : Byte) (i : Nat) : Bool := row.getLsbD (7 - i)

/-- XOR one sprite bit into the pixel at `(X, Y)` and OR the collision signal with `old & bit`
(R107, R108). -/
def xorPixel (X Y : Nat) (bit : Bool) (d : Framebuffer × Bool) : Framebuffer × Bool :=
  (setPixel d.1 X Y (getPixel d.1 X Y ^^ bit), d.2 || (getPixel d.1 X Y && bit))

/-- The eight columns of one sprite row, leftmost first (R107). -/
def drawRow (X Y : Nat) (row : Byte) (d : Framebuffer × Bool) : Framebuffer × Bool :=
  (List.range 8).foldl (fun d i => xorPixel (X + i) Y (spriteBit row i) d) d

/-- The sprite rows from display row `Y` down (R107). -/
def drawRows (X : Nat) : Nat → List Byte → Framebuffer × Bool → Framebuffer × Bool
  | _, [], d => d
  | Y, row :: rows, d => drawRows X (Y + 1) rows (drawRow X Y row d)

/-- `draw(X, Y, rows)` (R107): the framebuffer after it and the collision signal. -/
def draw (fb : Framebuffer) (X Y : Nat) (rows : List Byte) : Framebuffer × Bool :=
  drawRows X Y rows (fb, false)

/-- VF receives the collision signal (R110, D11); with the parameter DRAW_WRITES_VF off it does not. -/
def State.writeCollision (s : State) (collision : Bool) : State :=
  if s.params.drawWritesVF then s.writeV VF (flagByte collision) else s

/-- The effect of Draw on framebuffer and flag: the sprite is the `n` bytes at `I`, the corner the old
values of `V[x]` and `V[y]` (R110). -/
def State.drawSprite (s : State) (x y : Reg) (n : Nat) : State :=
  let d := draw s.fb (s.readV x).toNat (s.readV y).toNat (s.readAtI n)
  State.writeCollision { s with fb := d.1 } d.2

/-! ### Keys (spec/44_keypad_timers.md) -/

/-- Whether a key is pressed (R24). -/
def State.isDown (s : State) (k : KeyIndex) : Bool := s.K[k]

/-- The lowest index of a pressed key, if any (R119). -/
def State.firstDown (s : State) : Option KeyIndex := (List.finRange 16).find? (fun k => s.isDown k)

/-- A skip on the key whose index is `V[x]`: the stop KEY_INDEX when the value names no key
(R116, R117, R176). -/
def State.skipOnKey (s : State) (x : Reg) (wanted : Bool) : Out :=
  match keyOperand (s.readV x) with
  | some k => .next (s.condAdvance (s.isDown k == wanted))
  | none => .next (s.raiseStop .keyIndex (zextByte (s.readV x)))

/-! ### The random source (R158) -/

/-- `draw_rand()`: the byte the random source presents next. -/
def State.nextRandom (s : State) : Byte := Config.randomByte s.randCount

/-- The byte is consumed: the next execution of Random gets a fresh one. -/
def State.consumeRandom (s : State) : State := { s with randCount := s.randCount + 1 }

/-- `V[x] <- r & kk` for the byte `r` presented (R91). -/
def State.writeMasked (s : State) (x : Reg) (r kk : Byte) : State := s.writeV x (r &&& kk)

/-! ### Fetch (R132) -/

/-- The big-endian word at `pc` (R33), or none when `pc` or `pc + 1` is above 0xFFF (R132, R173). -/
def State.fetchWord (s : State) : Option Word :=
  if s.pc.toNat ≤ Config.lastFetchPc then
    some (wordOfBytes (Memory.read s.mem s.pc.toNat) (Memory.read s.mem (s.pc.toNat + 1)))
  else none

/-- A completed fetch: `ir <- w`, `ir_valid <- 1`, on to DECODE (R25, R130, R131). -/
def State.latchWord (s : State) (w : Word) : State :=
  { s with ir := w, irValid := true, phase := .decode }

end Sys2Proof.Machine
end

