-- ==== Sys2Proof/Machine/Alu.lean ====
section
/-! DEFINITION. The register load, arithmetic, logic, shift and random instructions
(spec/41_alu.md). -/

namespace Sys2Proof.Machine

/-- Load, 6xkk (R80). -/
def execLoad (x : Reg) (kk : Byte) (s : State) : Out := .next (s.writeV x kk).advance

/-- AddImm, 7xkk (R81): no flag. -/
def execAddImm (x : Reg) (kk : Byte) (s : State) : Out := .next (s.writeV x (s.readV x + kk)).advance

/-- Move, 8xy0 (R82). -/
def execMove (x y : Reg) (s : State) : Out := .next (s.writeV x (s.readV y)).advance

/-- Or, 8xy1 (R83): no flag. -/
def execOr (x y : Reg) (s : State) : Out := .next (s.writeV x (s.readV x ||| s.readV y)).advance

/-- And, 8xy2 (R84): no flag. -/
def execAnd (x y : Reg) (s : State) : Out := .next (s.writeV x (s.readV x &&& s.readV y)).advance

/-- Xor, 8xy3 (R85): no flag. -/
def execXor (x y : Reg) (s : State) : Out := .next (s.writeV x (s.readV x ^^^ s.readV y)).advance

/-- AddReg, 8xy4 (R86). -/
def execAddReg (x y : Reg) (s : State) : Out :=
  let a := s.readV x
  let b := s.readV y
  .next (s.writeResultAndFlag x (a + b) (carryFlag a b)).advance

/-- SubReg, 8xy5 (R87). -/
def execSubReg (x y : Reg) (s : State) : Out :=
  let a := s.readV x
  let b := s.readV y
  .next (s.writeResultAndFlag x (a - b) (noBorrowFlag a b)).advance

/-- ShiftRight, 8xy6 (R88): `V[y]` is not read. -/
def execShiftRight (x _y : Reg) (s : State) : Out :=
  let a := s.readV x
  .next (s.writeResultAndFlag x (a >>> 1) (shiftedOutRight a)).advance

/-- SubRegRev, 8xy7 (R89). -/
def execSubRegRev (x y : Reg) (s : State) : Out :=
  let a := s.readV x
  let b := s.readV y
  .next (s.writeResultAndFlag x (b - a) (noBorrowFlag b a)).advance

/-- ShiftLeft, 8xyE (R90): `V[y]` is not read. -/
def execShiftLeft (x _y : Reg) (s : State) : Out :=
  let a := s.readV x
  .next (s.writeResultAndFlag x (a <<< 1) (shiftedOutLeft a)).advance

/-- Random, Cxkk (R91): the byte is a free value, fresh at each execution (R158). -/
def execRandom (x : Reg) (kk : Byte) (s : State) : Out :=
  .next (s.consumeRandom.writeMasked x s.nextRandom kk).advance

end Sys2Proof.Machine
end

