-- ==== Sys2Proof/Machine/Control.lean ====
section
/-! DEFINITION. The control transfer and skip instructions (spec/40_control_flow.md). -/

namespace Sys2Proof.Machine

/-- Return, 00EE (R70). -/
def execRet (s : State) : Out := .next s.popReturn

/-- Jump, 1nnn (R71). -/
def execJump (nnn : BitVec 12) (s : State) : Out := .next (s.jumpTo (zextAddress nnn))

/-- Call, 2nnn (R72); with all frames live the stop STACK_OVERFLOW, whose datum is the instruction
word (R175). -/
def execCall (nnn : BitVec 12) (s : State) : Out :=
  match s.pushReturn with
  | some s' => .next (s'.jumpTo (zextAddress nnn))
  | none => .next (s.raiseStop .stackOverflow (encode (.call nnn)))

/-- SkipEq, 3xkk (R73). -/
def execSkipEq (x : Reg) (kk : Byte) (s : State) : Out := .next (s.condAdvance (s.readV x == kk))

/-- SkipNeq, 4xkk (R74). -/
def execSkipNeq (x : Reg) (kk : Byte) (s : State) : Out := .next (s.condAdvance (s.readV x != kk))

/-- SkipEqReg, 5xy0 (R75). -/
def execSkipEqReg (x y : Reg) (s : State) : Out := .next (s.condAdvance (s.readV x == s.readV y))

/-- SkipNeqReg, 9xy0 (R76). -/
def execSkipNeqReg (x y : Reg) (s : State) : Out := .next (s.condAdvance (s.readV x != s.readV y))

/-- JumpOffset, Bnnn (R77): always V0, the sum not reduced to 12 bits. -/
def execJumpOffset (nnn : BitVec 12) (s : State) : Out :=
  .next (s.jumpTo (zextByte (s.readV V0) + zextAddress nnn))

end Sys2Proof.Machine
end

