-- ==== Sys2Proof/Machine/Display.lean ====
section
/-! DEFINITION. The display instructions (spec/43_display.md). -/

namespace Sys2Proof.Machine

/-- Clear, 00E0 (R109). -/
def execClear (s : State) : Out := .next (State.advance { s with fb := clearedFb })

/-- Draw, Dxyn (R110): with `n = 0` there is no bounds check and the collision signal is 0. -/
def execDraw (x y : Reg) (n : BitVec 4) (s : State) : Out :=
  s.withAccess n.toNat (s.drawSprite x y n.toNat).advance

end Sys2Proof.Machine
end

