-- ==== Sys2Proof/Machine/IndexMemory.lean ====
section
/-! DEFINITION. The address-register and memory instructions (spec/42_index_memory.md). None of the
loads and stores changes `I` (R3). -/

namespace Sys2Proof.Machine

/-- LoadI, Annn (R96). -/
def execLoadI (nnn : BitVec 12) (s : State) : Out := .next (s.writeI (zextAddress nnn)).advance

/-- AddToI, Fx1E (R97): modulo 65536, no flag. -/
def execAddToI (x : Reg) (s : State) : Out := .next (s.writeI (s.I + zextByte (s.readV x))).advance

/-- FontAddr, Fx29 (R98): no memory access, no range check on the digit. -/
def execFontAddr (x : Reg) (s : State) : Out :=
  .next (s.writeI (glyphAddress s.fontBase (s.readV x))).advance

/-- ToBCD, Fx33 (R99). -/
def execToBCD (x : Reg) (s : State) : Out :=
  s.withAccess 3 (s.storeAtI (bcdDigits (s.readV x))).advance

/-- StoreRegs, Fx55 (R100). -/
def execStoreRegs (x : Reg) (s : State) : Out :=
  s.withAccess (x.val + 1) (s.storeAtI (s.regBytes x)).advance

/-- LoadRegs, Fx65 (R101). -/
def execLoadRegs (x : Reg) (s : State) : Out :=
  s.withAccess (x.val + 1)
    (State.advance { s with V := loadRegsFrom 0 (s.readAtI (x.val + 1)) s.V })

end Sys2Proof.Machine
end

