-- ==== Sys2Proof/Machine/KeypadTimers.lean ====
section
/-! DEFINITION. The keypad and timer instructions (spec/44_keypad_timers.md). -/

namespace Sys2Proof.Machine

/-- SkipKeyDown, Ex9E (R116). -/
def execSkipKeyDown (x : Reg) (s : State) : Out := s.skipOnKey x true

/-- SkipKeyUp, ExA1 (R117). -/
def execSkipKeyUp (x : Reg) (s : State) : Out := s.skipOnKey x false

/-- GetDelay, Fx07 (R118). -/
def execGetDelay (x : Reg) (s : State) : Out := .next (s.writeV x s.dt).advance

/-- WaitKey, Fx0A (R119): it does not wait; with no key pressed `V[x]` keeps its value. -/
def execWaitKey (x : Reg) (s : State) : Out :=
  match s.firstDown with
  | some k => .next (s.writeV x (BitVec.ofNat 8 k.val)).advance
  | none => .next s.advance

/-- SetDelay, Fx15 (R120). -/
def execSetDelay (x : Reg) (s : State) : Out := .next (State.advance { s with dt := s.readV x })

/-- SetSound, Fx18 (R121). -/
def execSetSound (x : Reg) (s : State) : Out := .next (State.advance { s with st := s.readV x })

end Sys2Proof.Machine
end

