-- ==== Sys2Proof/Machine/Dispatch.lean ====
section
/-! DEFINITION. The dispatch of an operation to its meaning (R134): one arm per constructor. -/

namespace Sys2Proof.Machine

def exec (i : Instr) (s : State) : Host.Outcome State Fault Refusal :=
  match i with
  | .clear => Sys2Proof.Machine.execClear s
  | .ret => Sys2Proof.Machine.execRet s
  | .jump nnn => Sys2Proof.Machine.execJump nnn s
  | .call nnn => Sys2Proof.Machine.execCall nnn s
  | .skipEq x kk => Sys2Proof.Machine.execSkipEq x kk s
  | .skipNeq x kk => Sys2Proof.Machine.execSkipNeq x kk s
  | .skipEqReg x y => Sys2Proof.Machine.execSkipEqReg x y s
  | .load x kk => Sys2Proof.Machine.execLoad x kk s
  | .addImm x kk => Sys2Proof.Machine.execAddImm x kk s
  | .move x y => Sys2Proof.Machine.execMove x y s
  | .orReg x y => Sys2Proof.Machine.execOr x y s
  | .andReg x y => Sys2Proof.Machine.execAnd x y s
  | .xorReg x y => Sys2Proof.Machine.execXor x y s
  | .addReg x y => Sys2Proof.Machine.execAddReg x y s
  | .subReg x y => Sys2Proof.Machine.execSubReg x y s
  | .shiftRight x y => Sys2Proof.Machine.execShiftRight x y s
  | .subRegRev x y => Sys2Proof.Machine.execSubRegRev x y s
  | .shiftLeft x y => Sys2Proof.Machine.execShiftLeft x y s
  | .skipNeqReg x y => Sys2Proof.Machine.execSkipNeqReg x y s
  | .loadI nnn => Sys2Proof.Machine.execLoadI nnn s
  | .jumpOffset nnn => Sys2Proof.Machine.execJumpOffset nnn s
  | .random x kk => Sys2Proof.Machine.execRandom x kk s
  | .draw x y n => Sys2Proof.Machine.execDraw x y n s
  | .skipKeyDown x => Sys2Proof.Machine.execSkipKeyDown x s
  | .skipKeyUp x => Sys2Proof.Machine.execSkipKeyUp x s
  | .getDelay x => Sys2Proof.Machine.execGetDelay x s
  | .waitKey x => Sys2Proof.Machine.execWaitKey x s
  | .setDelay x => Sys2Proof.Machine.execSetDelay x s
  | .setSound x => Sys2Proof.Machine.execSetSound x s
  | .addToI x => Sys2Proof.Machine.execAddToI x s
  | .fontAddr x => Sys2Proof.Machine.execFontAddr x s
  | .toBCD x => Sys2Proof.Machine.execToBCD x s
  | .storeRegs x => Sys2Proof.Machine.execStoreRegs x s
  | .loadRegs x => Sys2Proof.Machine.execLoadRegs x s

end Sys2Proof.Machine
end

