-- ==== Sys2Proof/Machine/HostInterface.lean ====
section
/-! DEFINITION. The host's transactions (spec/55_host_interface.md): each one atomic, at an
instruction boundary, with a reply. A refused transaction changes nothing (R161). -/

namespace Sys2Proof.Machine

/-- The status outputs (R159): what the host can read, the live stack entries only. -/
structure Status where
  V : Vector Byte 16
  pc : Addr
  I : Addr
  sp : Nat
  liveStack : List Addr
  dt : Byte
  st : Byte
  K : Vector Bool 16
  mem : Memory
  fontBase : Addr
  ir : Word
  irValid : Bool
  phase : Phase
  stopCause : StopCause
  stopInfo : Word
  deriving DecidableEq, Repr

/-- What the host is told. -/
inductive HostReply where
  /-- The transaction took effect. -/
  | accepted
  /-- The transaction had no effect on any state (R161). -/
  | refused
  /-- Tick returns the two values after the decrement (R154). -/
  | timers (dt st : Byte)
  /-- Get returns a pixel (R157). -/
  | pixel (b : Bool)
  /-- The status outputs (R159). -/
  | status (v : Status)
  deriving DecidableEq, Repr

/-- The status outputs of a state (R159). -/
def State.status (s : State) : Status where
  V := s.V
  pc := s.pc
  I := s.I
  sp := s.sp
  liveStack := s.stack.take s.sp
  dt := s.dt
  st := s.st
  K := s.K
  mem := s.mem
  fontBase := s.fontBase
  ir := s.ir
  irValid := s.irValid
  phase := s.phase
  stopCause := s.stopCause
  stopInfo := s.stopInfo

/-- Reset (R151, R190): every element to its reset value. What lies outside the block is not reset:
the parameters, the random source and the host's plan (log entry 12). -/
def State.hostReset (s : State) : State :=
  { State.resetWith s.params with randCount := s.randCount, host := s.host }

/-- A timer stepped down by one, staying at 0 (R154). -/
def tickDown (t : Byte) : Byte := if t.toNat > 0 then t - 1 else t

/-- The effect of Tick (R154). -/
def State.tick (s : State) : State := { s with dt := tickDown s.dt, st := tickDown s.st }

/-- `K[i] <- b` (R155, R156). -/
def State.setKey (s : State) (i : KeyIndex) (b : Bool) : State := { s with K := s.K.set i b }

/-- The effect of InstallFont (R153). -/
def State.installFont (s : State) (base : Addr) : State :=
  { s with mem := Memory.writeBytes s.mem base.toNat s.params.fontRom.toList, fontBase := base }

/-- The effect of LoadProgram (R152). -/
def State.loadProgram (s : State) (bytes : List Byte) : State :=
  { s with mem := Memory.writeBytes s.mem Config.programBase bytes }

/-- A host transaction: the state after it and the reply (R150 to R161). -/
def transact (t : Transaction) (s : State) : State × HostReply :=
  match t with
  | .reset => (s.hostReset, .accepted)
  | .installFont base =>
    if s.phase = .ready ∧ fontBaseFits base = true then (s.installFont base, .accepted)
    else (s, .refused)
  | .loadProgram bytes =>
    if s.phase = .ready ∧ programFits bytes = true then (s.loadProgram bytes, .accepted)
    else (s, .refused)
  | .tick => (s.tick, .timers s.tick.dt s.tick.st)
  | .keyDown i => (s.setKey i true, .accepted)
  | .keyUp i => (s.setKey i false, .accepted)
  | .get X Y => (s, .pixel (getPixel s.fb X Y))
  | .readStatus => (s, .status s.status)

end Sys2Proof.Machine
end

