-- ==== Sys2Proof/Machine/Cycle.lean ====
section
/-! DEFINITION. The instruction step (R131) and the total order of instruction steps and host
transactions (R150). -/

namespace Sys2Proof.Machine

/-- The phases in which an instruction step is enabled (R131). -/
def Phase.enabled : Phase → Bool
  | .ready => true
  | .fetch => true
  | .decode => false
  | .execute => false
  | .stopped => false

/-- On to EXECUTE (R130). -/
def State.enterExecute (s : State) : State := { s with phase := .execute }

/-- The end of a step: `phase <- FETCH`, unless the operation raised a stop (R130, R131). -/
def State.endStep (s : State) : State := if s.phase = .stopped then s else { s with phase := .fetch }

/-- The end of a step on what the operation answered. -/
def endStepOf : Out → Out
  | .next s => .next s.endStep
  | .fault r => .fault r
  | .refused r => .refused r

/-- One instruction step (R131): fetch (R132), decode (R133), execute (R134). It is enabled in READY
and FETCH only; elsewhere no step is taken and nothing changes (R161, R181; log entries 4 and 5). -/
def instructionStep (s : State) : Out :=
  if s.phase.enabled then
    match s.fetchWord with
    | none => .next (s.raiseStop .fetchBounds s.pc)
    | some w =>
      match decode w with
      | none => .next ((s.latchWord w).raiseStop .decodeNone w)
      | some i => endStepOf (exec i (s.latchWord w).enterExecute)
  else .next s

end Sys2Proof.Machine

namespace Sys2Proof

/-- The host's next move, and what it does after that (R140, R197). -/
def HostPlan.next (p : HostPlan) : HostMove × HostPlan :=
  match p.listed with
  | m :: rest => (m, { p with listed := rest })
  | [] =>
    match p.tail with
    | .repeats first others => (first, ⟨others, .repeats first others⟩)
    | .free k => (Config.hostMove k, ⟨[], .free (k + 1)⟩)

/-- The next `n` moves. -/
def HostPlan.moves : Nat → HostPlan → List HostMove
  | 0, _ => []
  | n + 1, p => p.next.1 :: HostPlan.moves n p.next.2

/-- What the host does after the next `n` moves. -/
def HostPlan.skip : Nat → HostPlan → HostPlan
  | 0, p => p
  | n + 1, p => HostPlan.skip n p.next.2

end Sys2Proof

namespace Sys2Proof.Machine

/-- What one move of the host does (R150, R160). -/
def hostStep : HostMove → State → Out
  | .permitStep, s => instructionStep s
  | .issue t, s => .next (transact t s).1

/-- The next element of the total order of R150: the host's next move (log entry 3). -/
def orderedStep (s : State) : Out := hostStep s.host.next.1 { s with host := s.host.next.2 }

/-- A state in which the next step fetches: the phase lets a step be taken, `pc` can be fetched from,
and the host permits steps. -/
def State.readyToFetch (s : State) : State :=
  let s := { s with host := .run }
  let s := if s.pc.toNat ≤ Config.lastFetchPc then s else { s with pc := 0x0200#16 }
  if s.phase.enabled then s
  else { s with phase := .fetch, stopCause := .none, stopInfo := 0 }

/-- Store a word where the next fetch reads it, the high byte first (R33). -/
def State.storeWordAtPc (s : State) (w : Word) : State :=
  { s with mem := Memory.writeBytes s.mem s.pc.toNat (bytesOfWord w) }

end Sys2Proof.Machine
end

