-- ==== Sys2Proof/Machine/Step.lean ====
section
/-! DEFINITION. The step of the machine, and the placing of one instruction where the step fetches
it. -/

namespace Sys2Proof.Machine

/-- One step: one host transaction or one instruction step (R150). -/
def step : State → Host.Outcome State Fault Refusal := fun s => orderedStep s

/-- `s` with the word of a row of spec/opcode_table.json where the next step fetches it (log
entry 11). -/
def State.withFetchWord (s : State) (nbits w : Nat) : State :=
  s.readyToFetch.storeWordAtPc (tableWord nbits w)

end Sys2Proof.Machine
end

