-- ==== Sys2Proof/Safety.lean ====
section
/-! DEFINITION. What claims are stated in: the ends of a run (R141, R170), the invariants of the
machine, and the sets of instructions that may change each element of the state. -/

namespace Sys2Proof.Machine

/-! ### The ends of a run -/

/-- The run ended normally: the halt (R141). -/
def State.halted (s : State) : Bool := s.phase == .stopped && s.stopCause == .decodeNone

/-- The run ended in a fault of the spec: any other cause (R141, R170). -/
def State.faulted (s : State) : Bool := s.phase == .stopped && s.stopCause != .decodeNone

/-- The phases the host can see (R26, R130). -/
def Phase.atBoundary : Phase → Bool
  | .ready => true
  | .fetch => true
  | .decode => false
  | .execute => false
  | .stopped => true

/-! ### Invariants -/

/-- What holds at every instruction boundary. -/
structure Inv (s : State) : Prop where
  /-- Memory is in canonical form, all of it inside the 4096 bytes (R19). -/
  memory : Memory.wf s.mem = true
  /-- The phase is one the host can see (R26). -/
  boundary : s.phase.atBoundary = true
  /-- STOPPED exactly when a cause is recorded (R27, R170). -/
  cause : s.phase = .stopped ↔ s.stopCause ≠ .none
  /-- No datum without a cause (R170). -/
  noInfo : s.stopCause = .none → s.stopInfo = 0
  /-- No fetch has completed in READY, one has in FETCH (R25, R26). -/
  fetchedOnce : (s.phase = .ready → s.irValid = false) ∧ (s.phase = .fetch → s.irValid = true)
  /-- The largest value `pc` can take (R12). -/
  pcBound : s.pc.toNat ≤ 0x10FE
  /-- The call stack has STACK_DEPTH entries, at least 1, and `sp` counts frames of it (R14, R15, D4). -/
  stackFits : s.stackFits ∧ 1 ≤ s.params.stackDepth
  /-- A live stack entry is the address after a Call (R15, R72). -/
  liveBound : ∀ a ∈ s.stack.take s.sp, a.toNat ≤ 0x1000
  /-- The font table lies inside memory (R153). -/
  fontBound : s.fontBase.toNat ≤ Config.maxFontBase
  /-- The parameter RESET_PC is within the bound of `pc` (D2). -/
  resetBound : s.params.resetPC.toNat ≤ 0x10FE

/-- Before its first instruction step the core is as Reset left it, but for what the host's
transactions write: memory, font base and keys (R190, R192, R193). -/
structure Fresh (s : State) : Prop where
  registers : s.V = Vector.replicate 16 0
  counter : s.pc = s.params.resetPC
  address : s.I = 0
  frames : s.sp = 0
  timers : s.dt = 0 ∧ s.st = 0
  display : s.fb = clearedFb
  lastFetch : s.ir = 0 ∧ s.irValid = false

/-- What a stop's record says is true of the state it stands in (R171 to R176). -/
def StopRecord (s : State) : Prop :=
  match s.stopCause with
  | .none => True
  | .decodeNone => s.pc.toNat ≤ Config.lastFetchPc ∧ s.stopInfo = s.ir ∧ decode s.ir = none
  | .fetchBounds => s.pc.toNat > Config.lastFetchPc ∧ s.stopInfo = s.pc
  | .dataBounds =>
    s.stopInfo.toNat ≥ Config.memSize ∧ s.stopInfo = firstOutOfRange s.I ∧
      ∃ x y n, decode s.ir ∈ [some (.draw x y n), some (.toBCD x), some (.storeRegs x), some (.loadRegs x)]
  | .stackOverflow => s.sp = s.params.stackDepth ∧ s.stopInfo = s.ir ∧ ∃ nnn, decode s.ir = some (.call nnn)
  | .keyIndex =>
    ∃ x, decode s.ir ∈ [some (.skipKeyDown x), some (.skipKeyUp x)] ∧
      s.stopInfo = zextByte (s.readV x) ∧ (s.readV x).toNat > 0x0F

/-! ### Who may change what (R3, R10, R11, R14, R17, R18, R20, R23, R24, R45) -/

/-- The register an instruction names as its destination, where it has exactly one (R10). -/
def destination : Instr → Option Reg
  | .load x _ | .addImm x _ | .random x _ => some x
  | .move x _ | .orReg x _ | .andReg x _ | .xorReg x _ => some x
  | .addReg x _ | .subReg x _ | .shiftRight x _ | .subRegRev x _ | .shiftLeft x _ => some x
  | .getDelay x | .waitKey x => some x
  | .clear | .ret | .jump _ | .call _ | .skipEq _ _ | .skipNeq _ _ | .skipEqReg _ _ | .skipNeqReg _ _ => none
  | .loadI _ | .jumpOffset _ | .draw _ _ _ | .skipKeyDown _ | .skipKeyUp _ => none
  | .setDelay _ | .setSound _ | .addToI _ | .fontAddr _ | .toBCD _ | .storeRegs _ | .loadRegs _ => none

/-- The instructions that write VF as a side effect (R11). -/
def writesFlag : Instr → Bool
  | .addReg _ _ | .subReg _ _ | .shiftRight _ _ | .subRegRev _ _ | .shiftLeft _ _ | .draw _ _ _ => true
  | .clear | .ret | .jump _ | .call _ | .skipEq _ _ | .skipNeq _ _ | .skipEqReg _ _ | .skipNeqReg _ _ => false
  | .load _ _ | .addImm _ _ | .move _ _ | .orReg _ _ | .andReg _ _ | .xorReg _ _ | .random _ _ => false
  | .loadI _ | .jumpOffset _ | .skipKeyDown _ | .skipKeyUp _ | .getDelay _ | .waitKey _ => false
  | .setDelay _ | .setSound _ | .addToI _ | .fontAddr _ | .toBCD _ | .storeRegs _ | .loadRegs _ => false

/-- Whether the instruction may write register `r` (R10, R11). -/
def mayWriteV (i : Instr) (r : Reg) : Bool :=
  destination i == some r || (writesFlag i && r == VF) ||
    match i with
    | .loadRegs x => decide (r ≤ x)
    | _ => false

/-- The bytes an instruction stores at `I` and up in a state (R43). -/
def storedBytes (i : Instr) (s : State) : List Byte :=
  match i with
  | .toBCD x => bcdDigits (s.readV x)
  | .storeRegs x => s.regBytes x
  | _ => []

/-- How an instruction moves the program counter (R135). -/
inductive PcClass where
  | controlFlow
  | skip
  | other
  deriving DecidableEq, Repr

/-- The class of R135's table. -/
def pcClass : Instr → PcClass
  | .jump _ | .call _ | .ret | .jumpOffset _ => .controlFlow
  | .skipEq _ _ | .skipNeq _ _ | .skipEqReg _ _ | .skipNeqReg _ _ | .skipKeyDown _ | .skipKeyUp _ => .skip
  | .clear | .load _ _ | .addImm _ _ | .move _ _ | .orReg _ _ | .andReg _ _ | .xorReg _ _ => .other
  | .addReg _ _ | .subReg _ _ | .shiftRight _ _ | .subRegRev _ _ | .shiftLeft _ _ => .other
  | .loadI _ | .random _ _ | .draw _ _ _ | .getDelay _ | .waitKey _ | .setDelay _ | .setSound _ => .other
  | .addToI _ | .fontAddr _ | .toBCD _ | .storeRegs _ | .loadRegs _ => .other

/-! ### The shapes of an instruction's completion -/

/-- The instruction completes; register `x` receives `v`, every other register keeps its value, `pc`
advances by 2, and nothing else of the state changes. -/
def CompletesWith (i : Instr) (s : State) (x : Reg) (v : Nat) : Prop :=
  ∃ t, exec i s = .next t ∧ (∀ r, (t.readV r).toNat = if r = x then v else (s.readV r).toNat) ∧
    t = { s with V := t.V, pc := s.pc + 2 }

/-- The instruction completes; VF receives `flag`, register `x` (when it is not VF) receives `v`,
every other register keeps its value, `pc` advances by 2, and nothing else of the state changes. -/
def CompletesWithFlag (i : Instr) (s : State) (x : Reg) (v flag : Nat) : Prop :=
  ∃ t, exec i s = .next t ∧
    (∀ r, (t.readV r).toNat = if r = VF then flag else if r = x then v else (s.readV r).toNat) ∧
    t = { s with V := t.V, pc := s.pc + 2 }

/-- The instruction stops with a cause and a datum, and nothing else of the state changes (R172,
R180). -/
def StopsWith (i : Instr) (s : State) (cause : StopCause) (info : Nat) : Prop :=
  ∃ t, exec i s = .next t ∧ t.stopInfo.toNat = info ∧
    t = { s with phase := .stopped, stopCause := cause, stopInfo := t.stopInfo }

/-- Two states that differ at most in dead stack entries (R15, U25). -/
def SameButDeadStack (s t : State) : Prop :=
  t = { s with stack := t.stack } ∧ t.stack.length = s.stack.length ∧
    ∀ k, k < s.sp → t.stack[k]? = s.stack[k]?

end Sys2Proof.Machine
end

