-- ==== Sys2Proof/Certificates/Slice0/Obligations.lean ====
section
/-! DEFINITION. The statements about the machine. Rule numbers are those of spec/; "D<n>" names a
decision of spec/92_eei_decisions.md (the spec's own choice), "log entry <n>" a choice of the model's. -/

open Sys2Proof Sys2Proof.Machine

/-! ### Reset and invariants -/

/-- R190: Reset is accepted in every state; from any state it leaves, and the state after reset has, every
element at its reset value; with the default parameters RESET_PC is 0x200 (D2) and the stack has 16
entries (D4). -/
def Obligations.ResetGivesEveryResetValue : Prop :=
  (∀ s : State, (transact .reset s).2 = .accepted) ∧
  ∀ t : State, (t = State.reset ∨ ∃ s, t = (transact .reset s).1) →
    (∀ r, t.readV r = 0x00#8) ∧ t.pc = t.params.resetPC ∧
    (t.params = Config.defaultParams → t.pc = 0x0200#16 ∧ t.stack.length = 16) ∧
    t.I = 0x0000#16 ∧ t.sp = 0 ∧ t.stack.length = t.params.stackDepth ∧ (∀ a ∈ t.stack, a = 0x0000#16) ∧
    t.dt = 0x00#8 ∧ t.st = 0x00#8 ∧ (∀ a, Memory.read t.mem a = 0x00#8) ∧ t.fontBase = 0x0000#16 ∧
    (∀ X Y, getPixel t.fb X Y = false) ∧ (∀ k, t.isDown k = false) ∧
    t.ir = 0x0000#16 ∧ t.irValid = false ∧ t.phase = .ready ∧
    t.stopCause.code = 0#4 ∧ t.stopInfo = 0x0000#16

/-- The invariants hold at reset. -/
def Obligations.InvariantsHoldAtReset : Prop :=
  Inv State.reset ∧ Fresh State.reset ∧ StopRecord State.reset

/-- Every step, an instruction's or the host's, keeps the invariant: memory canonical and inside the
4096 bytes (R19), a phase the host can see (R26), a cause exactly in STOPPED (R27), `ir_valid` as the
phase says (R25), `pc` at most 0x10FE (the bound R12 marks as derived), a stack of STACK_DEPTH entries with
`sp` at most that (R14, R15), live entries at most 0x1000 (the bound of R72's pseudocode), the font inside
memory (R153). -/
def Obligations.EveryStepKeepsTheInvariant : Prop :=
  ∀ s t : State, Inv s → step s = .next t → Inv t

/-- R193, R192: in READY the registers, `I`, the stack, both timers and the display are as Reset left
them, whatever the host does; every step keeps that. -/
def Obligations.ReadyStaysFresh : Prop :=
  ∀ s t : State, (s.phase = .ready → Fresh s) → step s = .next t → t.phase = .ready → Fresh t

/-- R171 to R176: what a stop records stays true of the state: the word that did not decode, the `pc`
that could not be fetched, the lowest out-of-range address, the Call's word, the key value. -/
def Obligations.StopRecordStaysTrue : Prop :=
  ∀ s t : State, Inv s → StopRecord s → step s = .next t → StopRecord t

/-- The model's form (log entries 4, 5 and 6, all DEDUCED): every operation answers a next state in every
state, a stop being one (entry 6), and so does every step, in STOPPED (entry 4), DECODE and EXECUTE
(entry 5) too: nothing is refused and nothing faults. -/
def Obligations.EveryOperationAndStepAnswers : Prop :=
  (∀ i s, ∃ t, exec i s = .next t) ∧ ∀ s, ∃ t, step s = .next t

/-! ### The codec -/

/-- R57 (a) to (d): decoding an encoded operation gives it back; encoding a decoded word gives it back;
decoding is injective on valid words; encoding never produces an invalid word. -/
def Obligations.CodecRoundTrip : Prop :=
  (∀ i, decode (encode i) = some i) ∧
  (∀ w i, decode w = some i → encode i = w) ∧
  (∀ w w' i, decode w = some i → decode w' = some i → w = w') ∧
  (∀ i, decode (encode i) ≠ none)

/-- R54: the decoder gives the operation of the row the word matches, and none when no row matches. -/
def Obligations.DecoderFollowsTheTable : Prop :=
  ∀ w, (∀ r ∈ opcodeTable, w &&& r.mask = r.bits → decode w = some (r.operation w)) ∧
    ((∀ r ∈ opcodeTable, w &&& r.mask ≠ r.bits) → decode w = none)

/-- R54, the clause the spec derives: no two rows of the table match the same word. -/
def Obligations.NoTwoRowsMatchOneWord : Prop :=
  opcodeTable.length = 34 ∧
  ∀ w (j k : Nat) (hj : j < opcodeTable.length) (hk : k < opcodeTable.length),
    opcodeTable[j].matches w = true → opcodeTable[k].matches w = true → j = k

/-- R58: the words that decode to none are exactly those of the rule's table, family by family. -/
def Obligations.InvalidWordsAreThese : Prop :=
  ∀ w : Word, decode w = none ↔
    (w.toNat < 0x1000 ∧ w.toNat ≠ 0x00E0 ∧ w.toNat ≠ 0x00EE) ∨
    (w.toNat / 0x1000 = 0x5 ∧ w.toNat % 16 ≠ 0) ∨
    (w.toNat / 0x1000 = 0x8 ∧ w.toNat % 16 ∈ [8, 9, 0xA, 0xB, 0xC, 0xD, 0xF]) ∨
    (w.toNat / 0x1000 = 0x9 ∧ w.toNat % 16 ≠ 0) ∨
    (w.toNat / 0x1000 = 0xE ∧ w.toNat % 256 ∉ [0x9E, 0xA1]) ∨
    (w.toNat / 0x1000 = 0xF ∧
      w.toNat % 256 ∉ [0x07, 0x0A, 0x15, 0x18, 0x1E, 0x29, 0x33, 0x55, 0x65])

/-- Words of 95_test_vectors.md (TE1 to TE65), one or more of each family 0x0 to 0xF, and the example
0xD232 of R56, decode to the operations named there. -/
def Obligations.SampleWordsDecode : Prop :=
  decode 0x00E0#16 = some .clear ∧ decode 0x00EE#16 = some .ret ∧
  decode 0x1000#16 = some (.jump 0x000#12) ∧ decode 0x2FFF#16 = some (.call 0xFFF#12) ∧
  decode 0x3AFF#16 = some (.skipEq 0xA 0xFF#8) ∧ decode 0x4000#16 = some (.skipNeq 0 0x00#8) ∧
  decode 0x5120#16 = some (.skipEqReg 1 2) ∧ decode 0x6105#16 = some (.load 1 0x05#8) ∧
  decode 0x7FFF#16 = some (.addImm 0xF 0xFF#8) ∧ decode 0xAFFF#16 = some (.loadI 0xFFF#12) ∧
  decode 0x8124#16 = some (.addReg 1 2) ∧ decode 0x81F6#16 = some (.shiftRight 1 0xF) ∧
  decode 0x8ABE#16 = some (.shiftLeft 0xA 0xB) ∧ decode 0x9F00#16 = some (.skipNeqReg 0xF 0) ∧
  decode 0xB123#16 = some (.jumpOffset 0x123#12) ∧ decode 0xC70F#16 = some (.random 7 0x0F#8) ∧
  decode 0xDFFF#16 = some (.draw 0xF 0xF 0xF#4) ∧ decode 0xD232#16 = some (.draw 2 3 2#4) ∧
  decode 0xE09E#16 = some (.skipKeyDown 0) ∧ decode 0xEFA1#16 = some (.skipKeyUp 0xF) ∧
  decode 0xF033#16 = some (.toBCD 0) ∧ decode 0xFF65#16 = some (.loadRegs 0xF) ∧
  decode 0x0000#16 = none ∧ decode 0x8129#16 = none ∧ decode 0xE1A0#16 = none ∧ decode 0xF085#16 = none

/-! ### The instruction step -/

/-- R131: when the core may take a step and the big-endian word at `pc` decodes to an operation, the
step is that operation's execution on the state with `ir` and `ir_valid` written; then `phase` is FETCH,
unless the operation stopped. The next move of the host's plan is a permission, which the step takes off
(the model's order, log entry 3). -/
def Obligations.StepRunsTheDecodedOperation : Prop :=
  ∀ (s : State) (rest : HostPlan) (w : Word) (i : Instr) (u : State),
    s.host.next = (.permitStep, rest) →
    (s.phase = .ready ∨ s.phase = .fetch) → s.pc.toNat ≤ 0x0FFE →
    w = Memory.read s.mem s.pc.toNat ++ Memory.read s.mem (s.pc.toNat + 1) → decode w = some i →
    exec i { s with host := rest, ir := w, irValid := true, phase := .execute } = .next u →
    step s = .next (if u.phase = .stopped then u else { u with phase := .fetch })

/-- R173: a step with `pc` above 0x0FFE stops with FETCH_BOUNDS and the `pc` as datum; `ir` and
`ir_valid` are not written (D7). R171: a word that does not decode stops the step with DECODE_NONE and
the word as datum; `ir` and `ir_valid` are written. Nothing else of the spec's state changes. The next move
of the host's plan is a permission, which the step takes off (the model's order, log entry 3). -/
def Obligations.StepStopsAtFetchAndDecode : Prop :=
  ∀ (s : State) (rest : HostPlan), s.host.next = (.permitStep, rest) →
    (s.phase = .ready ∨ s.phase = .fetch) →
    (s.pc.toNat > 0x0FFE →
      step s = .next { s with host := rest, phase := .stopped, stopCause := .fetchBounds, stopInfo := s.pc }) ∧
    (∀ w : Word, s.pc.toNat ≤ 0x0FFE →
      w = Memory.read s.mem s.pc.toNat ++ Memory.read s.mem (s.pc.toNat + 1) → decode w = none →
      step s = .next { s with
        host := rest, ir := w, irValid := true, phase := .stopped, stopCause := .decodeNone, stopInfo := w })

/-- R33: the word fetched at any `pc`, odd or even, has the byte at `pc` as its high byte. -/
def Obligations.FetchIsBigEndian : Prop :=
  ∀ s : State, s.pc.toNat ≤ 0x0FFE →
    ∃ w, s.fetchWord = some w ∧
      w.toNat = 256 * (Memory.read s.mem s.pc.toNat).toNat + (Memory.read s.mem (s.pc.toNat + 1)).toNat

/-- R181 in the model's form: from STOPPED, as long as no Reset is among the host's next n moves, n steps
leave everything as it is but the timers and the keys, which the host's Tick and key transactions still
change, and the plan, less those n moves (log entry 3). A step in STOPPED that is no transaction changes
nothing (log entry 4). -/
def Obligations.OnlyResetLeavesStopped : Prop :=
  ∀ (n : Nat) (s t : State), s.phase = .stopped → .issue .reset ∉ s.host.moves n → core.run n s = .next t →
    t = { s with dt := t.dt, st := t.st, K := t.K, host := s.host.skip n }

/-- R70 (a), R198 (a), the corner case the spec derives, over the host's plan of log entry 3: a Return with
an empty stack is executed for ever. From READY or FETCH a permitted step changes nothing but `ir`,
`ir_valid` and the phase, which becomes FETCH; while the host only permits steps, so does any positive
number of them. From FETCH, while the host does anything but Reset, any number of steps changes at most
the timers, the keys, the last-fetched word (to this Return's) and the plan: `pc`, `sp` and the phase
stay. -/
def Obligations.EmptyReturnRepeatsForEver : Prop :=
  ∀ s : State, s.sp = 0 → s.pc.toNat ≤ 0x0FFE → Memory.read s.mem s.pc.toNat = 0x00#8 →
    Memory.read s.mem (s.pc.toNat + 1) = 0xEE#8 →
    (∀ rest, s.host.next = (.permitStep, rest) → (s.phase = .ready ∨ s.phase = .fetch) →
      step s = .next { s with host := rest, ir := 0x00EE#16, irValid := true, phase := .fetch }) ∧
    (∀ n, (∀ move ∈ s.host.moves (n + 1), move = .permitStep) → (s.phase = .ready ∨ s.phase = .fetch) →
      core.run (n + 1) s = .next
        { s with host := s.host.skip (n + 1), ir := 0x00EE#16, irValid := true, phase := .fetch }) ∧
    (∀ n, .issue .reset ∉ s.host.moves n → s.phase = .fetch → ∃ t, core.run n s = .next t ∧
      t = { s with dt := t.dt, st := t.st, K := t.K, ir := t.ir, irValid := t.irValid, host := s.host.skip n } ∧
      (t.ir = s.ir ∧ t.irValid = s.irValid ∨ t.ir = 0x00EE#16 ∧ t.irValid = true))

/-- R180 in the model's form: stops are precise: an instruction step that stops changes nothing of the
spec's state but `ir`, `ir_valid`, `phase`, `stop_cause` and `stop_info`. The next move of the host's plan
is a permission, which the step takes off (log entry 3). -/
def Obligations.StopsArePrecise : Prop :=
  ∀ (s t : State) (rest : HostPlan), s.host.next = (.permitStep, rest) →
    s.phase ≠ .stopped → step s = .next t → t.phase = .stopped →
    t = { s with
      host := rest, ir := t.ir, irValid := t.irValid, phase := .stopped, stopCause := t.stopCause,
      stopInfo := t.stopInfo }

/-- R135: after an operation that does not stop, `pc` is the target for the four control-flow operations,
`pc + 4` or `pc + 2` for the six skips, `pc + 2` for all others. The stack holds an entry for every frame,
as the invariant says. -/
def Obligations.ProgramCounterContract : Prop :=
  ∀ (i : Instr) (s t : State), s.sp ≤ s.stack.length → s.phase ≠ .stopped → exec i s = .next t →
    t.phase ≠ .stopped →
    (pcClass i = .other → t.pc = s.pc + 2) ∧
    (pcClass i = .skip → t.pc = s.pc + 4 ∨ t.pc = s.pc + 2) ∧
    (pcClass i = .controlFlow →
      (∃ nnn, (i = .jump nnn ∨ i = .call nnn) ∧ t.pc.toNat = nnn.toNat) ∨
      (∃ nnn, i = .jumpOffset nnn ∧ t.pc.toNat = (s.readV 0).toNat + nnn.toNat) ∨
      (i = .ret ∧ s.sp = 0 ∧ t.pc = s.pc) ∨
      (i = .ret ∧ ∃ k, s.sp = k + 1 ∧ s.stack[k]? = some t.pc))

/-! ### Control transfer and skips -/

/-- R71, R77: Jump sets `pc` to the immediate, JumpOffset to V0 plus the immediate, not reduced; nothing
else changes. -/
def Obligations.JumpsSetThePc : Prop :=
  ∀ (nnn : BitVec 12) (s : State),
    (∃ t, exec (.jump nnn) s = .next t ∧ t.pc.toNat = nnn.toNat ∧ t = { s with pc := t.pc }) ∧
    (∃ t, exec (.jumpOffset nnn) s = .next t ∧ t.pc.toNat = (s.readV 0).toNat + nnn.toNat ∧
      t = { s with pc := t.pc })

/-- R72, R138, R175: Call pushes `pc + 2`, counts the frame and jumps; with STACK_DEPTH frames live it stops
with STACK_OVERFLOW and the instruction word as datum (D3, D4). The stack has STACK_DEPTH entries, as the
invariant says. -/
def Obligations.CallPushesTheReturnAddress : Prop :=
  ∀ (nnn : BitVec 12) (s : State), s.stack.length = s.params.stackDepth →
    (s.sp < s.params.stackDepth → ∃ t, exec (.call nnn) s = .next t ∧ t.sp = s.sp + 1 ∧
      t.stack[s.sp]? = some (s.pc + 2) ∧ (∀ k, k ≠ s.sp → t.stack[k]? = s.stack[k]?) ∧
      t.pc.toNat = nnn.toNat ∧ t = { s with sp := t.sp, stack := t.stack, pc := t.pc }) ∧
    (s.sp = s.params.stackDepth → StopsWith (.call nnn) s .stackOverflow (0x2000 + nnn.toNat))

/-- R70, R139: Return pops the most recent live entry into `pc` and uncounts the frame; on an empty stack
it changes nothing at all (D5). -/
def Obligations.ReturnPopsOrDoesNothing : Prop :=
  ∀ s : State,
    (s.sp = 0 → exec .ret s = .next s) ∧
    (∀ (k : Nat) (a : Addr), s.sp = k + 1 → s.stack[k]? = some a → ∃ t, exec .ret s = .next t ∧
      t.sp = k ∧ t.pc = a ∧ t = { s with sp := t.sp, pc := t.pc })

/-- C2: after a Call that did not stop, a Return from any state with the call's stack and frame count
resumes at the instruction after the Call, with the frame count of before. -/
def Obligations.CallThenReturnResumesAfterTheCall : Prop :=
  ∀ (nnn : BitVec 12) (s t u v : State), s.stack.length = s.params.stackDepth → s.sp < s.params.stackDepth →
    exec (.call nnn) s = .next t → u.sp = t.sp → u.stack = t.stack → exec .ret u = .next v →
    v.pc = s.pc + 2 ∧ v.sp = s.sp ∧ ∀ k, k < s.sp → v.stack[k]? = s.stack[k]?

/-- R73 to R76: the four compare-and-skip operations add 4 to `pc` when their predicate holds and 2
otherwise, and change nothing else. -/
def Obligations.CompareSkips : Prop :=
  ∀ (x y : Reg) (kk : Byte) (s : State),
    let advanced (d : Addr) : Out := .next { s with pc := s.pc + d }
    ((s.readV x).toNat = kk.toNat →
      exec (.skipEq x kk) s = advanced 4 ∧ exec (.skipNeq x kk) s = advanced 2) ∧
    ((s.readV x).toNat ≠ kk.toNat →
      exec (.skipEq x kk) s = advanced 2 ∧ exec (.skipNeq x kk) s = advanced 4) ∧
    ((s.readV x).toNat = (s.readV y).toNat →
      exec (.skipEqReg x y) s = advanced 4 ∧ exec (.skipNeqReg x y) s = advanced 2) ∧
    ((s.readV x).toNat ≠ (s.readV y).toNat →
      exec (.skipEqReg x y) s = advanced 2 ∧ exec (.skipNeqReg x y) s = advanced 4)

/-! ### Register load, arithmetic, logic, shift, random -/

/-- R80, R82 to R85: Load, Move and the bitwise operations give `V[x]` the immediate, `V[y]`, or the
bitwise result; VF is written only as the destination. -/
def Obligations.LoadMoveAndLogic : Prop :=
  ∀ (x y : Reg) (kk : Byte) (s : State),
    CompletesWith (.load x kk) s x kk.toNat ∧
    CompletesWith (.move x y) s x (s.readV y).toNat ∧
    CompletesWith (.orReg x y) s x ((s.readV x).toNat ||| (s.readV y).toNat) ∧
    CompletesWith (.andReg x y) s x ((s.readV x).toNat &&& (s.readV y).toNat) ∧
    CompletesWith (.xorReg x y) s x ((s.readV x).toNat ^^^ (s.readV y).toNat)

/-- R81, R86: AddImm and AddReg add modulo 256; AddReg sets VF to the carry, after the result, and
AddImm writes no flag. -/
def Obligations.Additions : Prop :=
  ∀ (x y : Reg) (kk : Byte) (s : State),
    CompletesWith (.addImm x kk) s x (((s.readV x).toNat + kk.toNat) % 256) ∧
    CompletesWithFlag (.addReg x y) s x (((s.readV x).toNat + (s.readV y).toNat) % 256)
      (if (s.readV x).toNat + (s.readV y).toNat > 255 then 1 else 0)

/-- R87: SubReg subtracts `V[y]` from `V[x]` modulo 256 and sets VF to 1 when no borrow occurred. -/
def Obligations.Subtraction : Prop :=
  ∀ (x y : Reg) (s : State),
    CompletesWithFlag (.subReg x y) s x
      (if (s.readV x).toNat ≥ (s.readV y).toNat then (s.readV x).toNat - (s.readV y).toNat
        else (s.readV x).toNat + 256 - (s.readV y).toNat)
      (if (s.readV x).toNat ≥ (s.readV y).toNat then 1 else 0)

/-- R89 (whose flag clause the spec derives): SubRegRev subtracts `V[x]` from `V[y]` modulo 256 and sets
VF to 1 when no borrow occurred. -/
def Obligations.ReverseSubtraction : Prop :=
  ∀ (x y : Reg) (s : State),
    CompletesWithFlag (.subRegRev x y) s x
      (if (s.readV y).toNat ≥ (s.readV x).toNat then (s.readV y).toNat - (s.readV x).toNat
        else (s.readV y).toNat + 256 - (s.readV x).toNat)
      (if (s.readV y).toNat ≥ (s.readV x).toNat then 1 else 0)

/-- R88, R90: the shifts move `V[x]` by one bit in place and set VF to the bit shifted out; `V[y]`
plays no part. -/
def Obligations.Shifts : Prop :=
  ∀ (x y : Reg) (s : State),
    CompletesWithFlag (.shiftRight x y) s x ((s.readV x).toNat / 2) ((s.readV x).toNat % 2) ∧
    CompletesWithFlag (.shiftLeft x y) s x ((s.readV x).toNat * 2 % 256) ((s.readV x).toNat / 128)

/-- R91, R158 with the free byte of log entry 2: Random writes to `V[x]` the byte the random source presents
ANDed with the immediate, and consumes that byte: the next Random gets the next one. No other register
changes. It holds whatever the byte is; in particular the result is at most the immediate and has no bit
outside it. -/
def Obligations.RandomIsAMaskedByte : Prop :=
  ∀ (x : Reg) (kk : Byte) (s : State), ∃ t, exec (.random x kk) s = .next t ∧
    t.readV x = s.nextRandom &&& kk ∧ (∀ r, r ≠ x → t.readV r = s.readV r) ∧
    t.readV x &&& ~~~kk = 0x00#8 ∧ (t.readV x).toNat ≤ kk.toNat ∧
    t = { s with V := t.V, pc := s.pc + 2, randCount := s.randCount + 1 }

/-! ### Address register and memory -/

/-- R96, R97, R98: LoadI writes the immediate to `I`, AddToI adds `V[x]` modulo 65536 (D9), FontAddr writes
`font_base + 5 * V[x]`, which does not overflow for a base InstallFont accepts (D29); for a base no
InstallFont leaves, the sum is modulo 65536 (the width of `I`). No register, no flag and no memory
changes. -/
def Obligations.AddressRegisterWrites : Prop :=
  ∀ (nnn : BitVec 12) (x : Reg) (s : State),
    (∃ t, exec (.loadI nnn) s = .next t ∧ t.I.toNat = nnn.toNat ∧ t = { s with I := t.I, pc := s.pc + 2 }) ∧
    (∃ t, exec (.addToI x) s = .next t ∧ t.I.toNat = (s.I.toNat + (s.readV x).toNat) % 65536 ∧
      t = { s with I := t.I, pc := s.pc + 2 }) ∧
    (∃ t, exec (.fontAddr x) s = .next t ∧
      (s.fontBase.toNat ≤ 0x0FB0 → t.I.toNat = s.fontBase.toNat + 5 * (s.readV x).toNat) ∧
      t.I.toNat = (s.fontBase.toNat + 5 * (s.readV x).toNat) % 65536 ∧
      t = { s with I := t.I, pc := s.pc + 2 })

/-- R99: ToBCD stores the hundreds, tens and ones of `V[x]` at `I`, `I+1`, `I+2`, every other byte of memory
reads as before, and nothing else changes; when a byte would lie above 0xFFF it stops with DATA_BOUNDS
and stores nothing (D8). -/
def Obligations.ToBCDStoresTheDigits : Prop :=
  ∀ (x : Reg) (s : State), Memory.wf s.mem = true →
    (s.I.toNat + 2 ≤ 0x0FFF → ∃ t, exec (.toBCD x) s = .next t ∧
      (Memory.read t.mem s.I.toNat).toNat = (s.readV x).toNat / 100 ∧
      (Memory.read t.mem (s.I.toNat + 1)).toNat = (s.readV x).toNat / 10 % 10 ∧
      (Memory.read t.mem (s.I.toNat + 2)).toNat = (s.readV x).toNat % 10 ∧
      (∀ a, (a < s.I.toNat ∨ a > s.I.toNat + 2) → Memory.read t.mem a = Memory.read s.mem a) ∧
      t = { s with mem := t.mem, pc := s.pc + 2 }) ∧
    (s.I.toNat + 2 > 0x0FFF → StopsWith (.toBCD x) s .dataBounds (max s.I.toNat 0x1000))

/-- R100: StoreRegs stores register k at `I + k` for k up to x, every other byte of memory reads as before,
and nothing else changes; when a byte would lie above 0xFFF it stops with DATA_BOUNDS and stores
nothing (D8). -/
def Obligations.StoreRegsStoresTheRegisters : Prop :=
  ∀ (x : Reg) (s : State), Memory.wf s.mem = true →
    (s.I.toNat + x.val ≤ 0x0FFF → ∃ t, exec (.storeRegs x) s = .next t ∧
      (∀ k : Reg, k ≤ x → Memory.read t.mem (s.I.toNat + k.val) = s.readV k) ∧
      (∀ a, (a < s.I.toNat ∨ a > s.I.toNat + x.val) → Memory.read t.mem a = Memory.read s.mem a) ∧
      t = { s with mem := t.mem, pc := s.pc + 2 }) ∧
    (s.I.toNat + x.val > 0x0FFF → StopsWith (.storeRegs x) s .dataBounds (max s.I.toNat 0x1000))

/-- R101: LoadRegs loads register k from `I + k` for k up to x, the registers above x keep their values, and
nothing else changes; when a byte would lie above 0xFFF it stops with DATA_BOUNDS and loads nothing
(D8). -/
def Obligations.LoadRegsLoadsTheRegisters : Prop :=
  ∀ (x : Reg) (s : State),
    (s.I.toNat + x.val ≤ 0x0FFF → ∃ t, exec (.loadRegs x) s = .next t ∧
      (∀ k : Reg, t.readV k = if k ≤ x then Memory.read s.mem (s.I.toNat + k.val) else s.readV k) ∧
      t = { s with V := t.V, pc := s.pc + 2 }) ∧
    (s.I.toNat + x.val > 0x0FFF → StopsWith (.loadRegs x) s .dataBounds (max s.I.toNat 0x1000))

/-- R42: a store is seen by the very next fetch: StoreRegs over the bytes right after itself makes the next
word the first two registers. -/
def Obligations.StoreIsSeenByTheNextFetch : Prop :=
  ∀ (x : Reg) (s t : State), Memory.wf s.mem = true → s.pc.toNat ≤ 0x0FFC → s.I = s.pc + 2 → 1 ≤ x.val →
    s.phase ≠ .stopped → exec (.storeRegs x) s = .next t → t.phase ≠ .stopped →
    t.fetchWord = some (s.readV 0 ++ s.readV 1)

/-- Log entry 13: memory has one form: two canonical memories that read the same everywhere are equal. -/
def Obligations.CanonicalMemoryIsUnique : Prop :=
  ∀ m n : Memory, Memory.wf m = true → Memory.wf n = true →
    (∀ a, a < 4096 → Memory.read m a = Memory.read n a) → m = n

/-! ### Display -/

/-- R109: Clear unsets every pixel and changes nothing else, VF included. -/
def Obligations.ClearUnsetsEveryPixel : Prop :=
  ∀ s : State, ∃ t, exec .clear s = .next t ∧ (∀ X Y, getPixel t.fb X Y = false) ∧
    t = { s with fb := t.fb, pc := s.pc + 2 }

/-- R107, R108: after `draw`, the pixel under each sprite bit is the old pixel XOR that bit, wrapped per
axis; every other pixel is unchanged; the signal is set exactly when some pixel that was set was hit by
a set bit. -/
def Obligations.DrawXorsEachSpriteBit : Prop :=
  ∀ (fb : Framebuffer) (X Y : Nat) (rows : List Byte), rows.length ≤ 15 →
    (∀ (j i : Nat) (h : j < rows.length), i < 8 →
      getPixel (draw fb X Y rows).1 (X + i) (Y + j) =
        (getPixel fb (X + i) (Y + j) ^^ rows[j].getLsbD (7 - i))) ∧
    (∀ c r, (∀ j i, j < rows.length → i < 8 → ¬ (c % 64 = (X + i) % 64 ∧ r % 32 = (Y + j) % 32)) →
      getPixel (draw fb X Y rows).1 c r = getPixel fb c r) ∧
    ((draw fb X Y rows).2 = true ↔
      ∃ (j i : Nat) (h : j < rows.length), i < 8 ∧ getPixel fb (X + i) (Y + j) = true ∧
        rows[j].getLsbD (7 - i) = true)

/-- R112 (b), (c): drawing the same sprite twice restores the framebuffer, and the second draw reports a
collision exactly when some set bit fell on a pixel that was unset before the first. -/
def Obligations.DrawingTwiceRestores : Prop :=
  ∀ (fb : Framebuffer) (X Y : Nat) (rows : List Byte), rows.length ≤ 15 →
    (draw (draw fb X Y rows).1 X Y rows).1 = fb ∧
    ((draw (draw fb X Y rows).1 X Y rows).2 = true ↔
      ∃ (j i : Nat) (h : j < rows.length), i < 8 ∧ getPixel fb (X + i) (Y + j) = false ∧
        rows[j].getLsbD (7 - i) = true)

/-- R110: Draw reads its `n` bytes at `I`, draws them at the old `V[x]`, `V[y]`, sets VF to the collision
signal (D11; the parameter DRAW_WRITES_VF is on, as it is by default) and changes nothing else; with
`n = 0` there is no bounds check. When a byte would lie above 0xFFF it stops with DATA_BOUNDS and draws
nothing (D8), whatever the parameter. -/
def Obligations.DrawDrawsTheSpriteAtI : Prop :=
  ∀ (x y : Reg) (n : BitVec 4) (s : State),
    (s.params.drawWritesVF = true → (n = 0 ∨ s.I.toNat + n.toNat - 1 ≤ 0x0FFF) → ∃ (t : State) (rows : List Byte),
      exec (.draw x y n) s = .next t ∧ rows.length = n.toNat ∧
      (∀ (j : Nat) (h : j < rows.length), rows[j] = Memory.read s.mem (s.I.toNat + j)) ∧
      t.fb = (draw s.fb (s.readV x).toNat (s.readV y).toNat rows).1 ∧
      (∀ r, t.readV r = if r = VF then
        (if (draw s.fb (s.readV x).toNat (s.readV y).toNat rows).2 then 0x01#8 else 0x00#8)
        else s.readV r) ∧
      t = { s with V := t.V, fb := t.fb, pc := s.pc + 2 }) ∧
    (n ≠ 0 → s.I.toNat + n.toNat - 1 > 0x0FFF →
      StopsWith (.draw x y n) s .dataBounds (max s.I.toNat 0x1000))

/-- Log entry 7: with the parameter DRAW_WRITES_VF off, Draw draws the same pixels and writes no
register. -/
def Obligations.DrawWithoutTheFlag : Prop :=
  ∀ (x y : Reg) (n : BitVec 4) (s : State), s.params.drawWritesVF = false →
    (n = 0 ∨ s.I.toNat + n.toNat - 1 ≤ 0x0FFF) → ∃ t u : State,
      exec (.draw x y n) s = .next t ∧
      exec (.draw x y n) { s with params := { s.params with drawWritesVF := true } } = .next u ∧
      t.fb = u.fb ∧ t = { s with fb := t.fb, pc := s.pc + 2 }

/-- R111, R157: Get reads wrapped coordinates and changes nothing. -/
def Obligations.GetReadsWrappedCoordinates : Prop :=
  ∀ (X Y : Nat) (s : State),
    ∃ b, transact (.get X Y) s = (s, .pixel b) ∧ ∀ (r : Fin 32) (c : Fin 64),
      Y % 32 = r.val → X % 64 = c.val → b = (s.fb[r])[c]

/-! ### Keys and timers -/

/-- R116, R117, R176: SkipKeyDown skips when the key whose index is the value of `V[x]` is pressed, SkipKeyUp
when it is not; a value above 0x0F stops with KEY_INDEX and the value as datum (D10). -/
def Obligations.KeySkips : Prop :=
  ∀ (x : Reg) (s : State),
    (∀ k : KeyIndex, (s.readV x).toNat = k.val →
      exec (.skipKeyDown x) s = .next { s with pc := if s.K[k] = true then s.pc + 4 else s.pc + 2 } ∧
      exec (.skipKeyUp x) s = .next { s with pc := if s.K[k] = true then s.pc + 2 else s.pc + 4 }) ∧
    ((s.readV x).toNat > 0x0F →
      StopsWith (.skipKeyDown x) s .keyIndex (s.readV x).toNat ∧
      StopsWith (.skipKeyUp x) s .keyIndex (s.readV x).toNat)

/-- R119: WaitKey gives `V[x]` the lowest index of a pressed key; with none pressed only `pc` changes; in both
cases `pc` advances by 2. -/
def Obligations.WaitKeyTakesTheLowestKey : Prop :=
  ∀ (x : Reg) (s : State),
    (∀ k : KeyIndex, s.K[k] = true → (∀ j : KeyIndex, j < k → s.K[j] = false) →
      CompletesWith (.waitKey x) s x k.val) ∧
    ((∀ k : KeyIndex, s.K[k] = false) → exec (.waitKey x) s = .next { s with pc := s.pc + 2 })

/-- R118, R120, R121: GetDelay copies the delay timer to `V[x]`; SetDelay and SetSound copy `V[x]` to their
timer; nothing else changes. -/
def Obligations.TimerCopies : Prop :=
  ∀ (x : Reg) (s : State),
    CompletesWith (.getDelay x) s x s.dt.toNat ∧
    (∃ t, exec (.setDelay x) s = .next t ∧ t.dt.toNat = (s.readV x).toNat ∧
      t = { s with dt := t.dt, pc := s.pc + 2 }) ∧
    (∃ t, exec (.setSound x) s = .next t ∧ t.st.toNat = (s.readV x).toNat ∧
      t = { s with st := t.st, pc := s.pc + 2 })

/-! ### What no instruction changes -/

/-- R10, R3: an operation changes no register but its destination, VF for the flag writers of R11, and V0 to
Vx for LoadRegs. -/
def Obligations.RegisterFrame : Prop :=
  ∀ (i : Instr) (s t : State) (r : Reg), exec i s = .next t → mayWriteV i r = false →
    t.readV r = s.readV r

/-- R11: the flag a flag writer leaves in VF is 0x00 or 0x01, VF the destination included (the parameter
DRAW_WRITES_VF on). -/
def Obligations.FlagIsZeroOrOne : Prop :=
  ∀ (i : Instr) (s t : State), writesFlag i = true → s.params.drawWritesVF = true → s.phase ≠ .stopped →
    exec i s = .next t → t.phase ≠ .stopped → t.readV VF = 0x00#8 ∨ t.readV VF = 0x01#8

/-- R43, R32: an operation changes no byte of memory but those it stores from `I` up: three for ToBCD, x + 1
for StoreRegs, none for the others. -/
def Obligations.MemoryFrame : Prop :=
  ∀ (i : Instr) (s t : State) (a : Nat), exec i s = .next t →
    (a < s.I.toNat ∨ s.I.toNat + (storedBytes i s).length ≤ a) →
    Memory.read t.mem a = Memory.read s.mem a

/-- D1 with 10_state.md: no operation changes the keys, the font base, `ir` or `ir_valid`; the frame count
and stack change only by Call and Return, the timers only by SetDelay and SetSound, the display only by
Clear and Draw, `I` only by LoadI, AddToI and FontAddr; phase and stop record change only by a stop, which
changes nothing else. Of the model's own fields, the parameters (log entry 1) and the host's plan (log
entry 3) never change, and the count of random draws (log entry 2) only by Random. -/
def Obligations.ElementFrames : Prop :=
  ∀ (i : Instr) (s t : State), exec i s = .next t →
    t.K = s.K ∧ t.fontBase = s.fontBase ∧ t.ir = s.ir ∧ t.irValid = s.irValid ∧ t.params = s.params ∧
    t.host = s.host ∧
    (t.sp ≠ s.sp → i = .ret ∨ ∃ nnn, i = .call nnn) ∧ (t.stack ≠ s.stack → ∃ nnn, i = .call nnn) ∧
    (t.dt ≠ s.dt → ∃ x, i = .setDelay x) ∧ (t.st ≠ s.st → ∃ x, i = .setSound x) ∧
    (t.fb ≠ s.fb → i = .clear ∨ ∃ x y n, i = .draw x y n) ∧
    (t.I ≠ s.I → (∃ nnn, i = .loadI nnn) ∨ ∃ x, i = .addToI x ∨ i = .fontAddr x) ∧
    (t.randCount ≠ s.randCount → ∃ x kk, i = .random x kk) ∧
    (t.phase = s.phase ∧ t.stopCause = s.stopCause ∧ t.stopInfo = s.stopInfo ∨
      t.stopCause ≠ .none ∧ t = { s with phase := .stopped, stopCause := t.stopCause, stopInfo := t.stopInfo })

/-! ### What no instruction learns -/

/-- R25: no operation's result depends on `ir` or `ir_valid`. -/
def Obligations.LastFetchHasNoEffect : Prop :=
  ∀ (i : Instr) (s t : State) (w : Word) (b : Bool), exec i s = .next t →
    exec i { s with ir := w, irValid := b } = .next { t with ir := w, irValid := b }

/-- R15, U25: a dead stack entry is never read: two states that differ only in dead entries take steps to
states that differ only in dead entries. -/
def Obligations.DeadStackEntriesHaveNoEffect : Prop :=
  ∀ s s' t : State, SameButDeadStack s s' → step s = .next t →
    ∃ t', step s' = .next t' ∧ SameButDeadStack t t' ∧ t'.status = t.status

/-! ### The host -/

/-- R154: Tick steps each timer down by one, staying at 0, returns the new values and touches nothing else;
after n Ticks each timer is its old value less n, never below 0. -/
def Obligations.TickSaturatesAtZero : Prop :=
  (∀ s : State, ∃ t, transact .tick s = (t, .timers t.dt t.st) ∧
    t.dt.toNat = s.dt.toNat - 1 ∧ t.st.toNat = s.st.toNat - 1 ∧ t = { s with dt := t.dt, st := t.st }) ∧
  ∀ (n : Nat) (s : State),
    ((fun u => (transact .tick u).1)^[n] s).dt.toNat = s.dt.toNat - n ∧
    ((fun u => (transact .tick u).1)^[n] s).st.toNat = s.st.toNat - n

/-- R155, R156: KeyDown and KeyUp set and clear their key, leave every other key and everything else alone,
and are idempotent (D17). -/
def Obligations.KeyTransactions : Prop :=
  ∀ (i : KeyIndex) (b : Bool) (s : State), ∃ t,
    transact (if b then .keyDown i else .keyUp i) s = (t, .accepted) ∧
    (∀ k : KeyIndex, t.K[k] = if k = i then b else s.K[k]) ∧ t = { s with K := t.K } ∧
    transact (if b then .keyDown i else .keyUp i) t = (t, .accepted)

/-- R153: InstallFont in READY with a base up to 0x0FB0 writes the 80 bytes of FONT_ROM from the base up and
records the base; every other byte and all else is unchanged; otherwise it is refused and changes
nothing (D15, D20). -/
def Obligations.InstallFontWritesTheFont : Prop :=
  ∀ (base : Addr) (s : State), Memory.wf s.mem = true →
    (s.phase = .ready → base.toNat ≤ 0x0FB0 → ∃ t, transact (.installFont base) s = (t, .accepted) ∧
      (∀ k : Fin 80, Memory.read t.mem (base.toNat + k.val) = s.params.fontRom[k]) ∧
      (∀ a, (a < base.toNat ∨ a ≥ base.toNat + 80) → Memory.read t.mem a = Memory.read s.mem a) ∧
      t.fontBase = base ∧ t = { s with mem := t.mem, fontBase := base }) ∧
    (s.phase ≠ .ready ∨ base.toNat > 0x0FB0 → transact (.installFont base) s = (s, .refused))

/-- R152: LoadProgram in READY with at most 3584 bytes writes them from 0x200 up; every other byte and all
else is unchanged; otherwise it is refused whole and changes nothing (D23, D20). -/
def Obligations.LoadProgramWritesTheProgram : Prop :=
  ∀ (bytes : List Byte) (s : State), Memory.wf s.mem = true →
    (s.phase = .ready → bytes.length ≤ 3584 → ∃ t, transact (.loadProgram bytes) s = (t, .accepted) ∧
      (∀ (k : Nat) (h : k < bytes.length), Memory.read t.mem (0x200 + k) = bytes[k]) ∧
      (∀ a, (a < 0x200 ∨ a ≥ 0x200 + bytes.length) → Memory.read t.mem a = Memory.read s.mem a) ∧
      t = { s with mem := t.mem }) ∧
    (s.phase ≠ .ready ∨ bytes.length > 3584 → transact (.loadProgram bytes) s = (s, .refused))

/-- R159: a status read changes nothing and shows every element the host may see; of the stack it shows
the live entries, the oldest first. -/
def Obligations.StatusShowsTheState : Prop :=
  ∀ s : State, ∃ v, transact .readStatus s = (s, .status v) ∧
    v.V = s.V ∧ v.pc = s.pc ∧ v.I = s.I ∧ v.sp = s.sp ∧ v.dt = s.dt ∧ v.st = s.st ∧ v.K = s.K ∧
    (∀ a, Memory.read v.mem a = Memory.read s.mem a) ∧ v.fontBase = s.fontBase ∧ v.ir = s.ir ∧
    v.irValid = s.irValid ∧ v.phase = s.phase ∧ v.stopCause = s.stopCause ∧ v.stopInfo = s.stopInfo ∧
    (s.sp ≤ s.stack.length → v.liveStack.length = s.sp) ∧
    (∀ k, k < s.sp → v.liveStack[k]? = s.stack[k]?) ∧ ∀ k, s.sp ≤ k → v.liveStack[k]? = none

/-- R161: every transaction but InstallFont and LoadProgram is accepted in every phase; those two are refused,
without effect, outside READY. -/
def Obligations.AcceptanceByPhase : Prop :=
  ∀ (tr : Transaction) (s : State),
    ((∀ base, tr ≠ .installFont base) → (∀ bytes, tr ≠ .loadProgram bytes) → (transact tr s).2 ≠ .refused) ∧
    ((transact tr s).2 = .refused → (transact tr s).1 = s ∧ (s.phase ≠ .ready ∨ tr.wellFormed = false)) ∧
    (s.phase ≠ .ready → ((∃ base, tr = .installFont base) ∨ ∃ bytes, tr = .loadProgram bytes) →
      transact tr s = (s, .refused))

/-- R162: the host writes no register, `pc`, `I`, stack, framebuffer or stop record except by Reset, and no
memory outside READY. -/
def Obligations.HostWritesNoCoreState : Prop :=
  ∀ (tr : Transaction) (s : State), tr ≠ .reset →
    let t := (transact tr s).1
    t = { s with dt := t.dt, st := t.st, K := t.K, mem := t.mem, fontBase := t.fontBase } ∧
    (tr ≠ .tick → t.dt = s.dt ∧ t.st = s.st) ∧
    (s.phase ≠ .ready → t.mem = s.mem ∧ t.fontBase = s.fontBase)

/-- R150, R160, R161 in the model's form: a step whose next move is a transaction is that transaction alone
and takes it off the plan (the model's order, log entry 3); a step whose next move is a permission, in
STOPPED, changes nothing but the plan, less that move (log entry 4, DEDUCED from R161). -/
def Obligations.HostMoveIsOneStep : Prop :=
  (∀ (tr : Transaction) (rest : HostPlan) (s : State), s.host.next = (.issue tr, rest) →
    step s = .next (transact tr { s with host := rest }).1) ∧
  (∀ (rest : HostPlan) (s : State), s.host.next = (.permitStep, rest) → s.phase = .stopped →
    step s = .next { s with host := rest })

/-- R140, R197 in the model's form (log entry 3): a plan is an infinite sequence of moves. First come the
listed moves, in order; then a repeating tail gives its moves over and over, for ever, and a free tail the
moves of `Config.hostMove` from its number on. A run with infinitely many transactions is such a plan. -/
def Obligations.HostPlanNeverEnds : Prop :=
  ∀ (listed : List HostMove) (n : Nat),
    (∀ tail, HostPlan.moves listed.length ⟨listed, tail⟩ = listed ∧
      HostPlan.skip listed.length ⟨listed, tail⟩ = ⟨[], tail⟩) ∧
    (∀ first others, (HostPlan.skip n ⟨[], .repeats first others⟩).next.1 =
      (first :: others)[n % (others.length + 1)]'(Nat.mod_lt _ (Nat.succ_pos _))) ∧
    (∀ k, (HostPlan.skip n ⟨[], .free k⟩).next = (Config.hostMove (k + n), ⟨[], .free (k + n + 1)⟩))
end

