-- ==== Sys2Proof/Laws/Display.lean ====
section
/-! SUPPORT. The framebuffer operations, one pixel and one sprite row at a time (R106 to R108). -/

namespace Sys2Proof.Machine

/-- Coordinates are taken modulo the grid (R106, R111). -/
theorem getPixel_mod (fb : Framebuffer) (X Y : Nat) :
    getPixel fb X Y = getPixel fb (X % Config.displayWidth) (Y % Config.displayHeight) := by
  simp [getPixel]

/-- What every pixel reads as after one pixel is set (R106). -/
theorem getPixel_setPixel (fb : Framebuffer) (X Y c r : Nat) (b : Bool) :
    getPixel (setPixel fb X Y b) c r =
      if c % Config.displayWidth = X % Config.displayWidth ∧
          r % Config.displayHeight = Y % Config.displayHeight then b
      else getPixel fb c r := by
  unfold getPixel setPixel
  by_cases hr : r % Config.displayHeight = Y % Config.displayHeight
  · by_cases hc : c % Config.displayWidth = X % Config.displayWidth
    · simp [hr, hc]
    · simp [hr, hc, Ne.symm hc]
  · simp [hr, Ne.symm hr]

/-- Two framebuffers that read the same at every pixel of the grid are equal. -/
theorem framebuffer_ext {f g : Framebuffer} (h : ∀ c r, getPixel f c r = getPixel g c r) : f = g := by
  apply Vector.ext
  intro r hr
  apply Vector.ext
  intro c hc
  have := h c r
  simpa [getPixel, Nat.mod_eq_of_lt hr, Nat.mod_eq_of_lt hc] using this

@[simp] theorem getPixel_clearedFb (X Y : Nat) : getPixel clearedFb X Y = false := by
  simp [getPixel, clearedFb]

/-- Every pixel after one XOR (R107). -/
theorem getPixel_xorPixel (X Y c r : Nat) (bit : Bool) (d : Framebuffer × Bool) :
    getPixel (xorPixel X Y bit d).1 c r =
      (getPixel d.1 c r ^^
        (bit && decide (c % Config.displayWidth = X % Config.displayWidth ∧
          r % Config.displayHeight = Y % Config.displayHeight))) := by
  simp only [xorPixel, getPixel_setPixel]
  split
  · next h => rw [getPixel_mod d.1 c r, h.1, h.2, ← getPixel_mod]; simp
  · next h => simp [h]

/-- The collision signal after one XOR (R108). -/
theorem collision_xorPixel (X Y : Nat) (bit : Bool) (d : Framebuffer × Bool) :
    (xorPixel X Y bit d).2 = (d.2 || (getPixel d.1 X Y && bit)) := rfl

@[simp] theorem drawRows_nil (X Y : Nat) (d : Framebuffer × Bool) : drawRows X Y [] d = d := rfl

theorem drawRows_cons (X Y : Nat) (row : Byte) (rows : List Byte) (d : Framebuffer × Bool) :
    drawRows X Y (row :: rows) d = drawRows X (Y + 1) rows (drawRow X Y row d) := rfl

end Sys2Proof.Machine
end

