-- ==== Sys2Proof/Laws/Encoding.lean ====
section
/-! SUPPORT. The fields of an encoded word: what each placed field contributes to each field read
(R51, R56), and the well-formedness of every operation (R55). -/

namespace Sys2Proof

/-! ### A field of a union of words -/

theorem fieldT_or (a b : Word) : fieldT (a ||| b) = fieldT a ||| fieldT b := BitVec.extractLsb'_or

theorem fieldN_or (a b : Word) : fieldN (a ||| b) = fieldN a ||| fieldN b := BitVec.extractLsb'_or

theorem fieldKK_or (a b : Word) : fieldKK (a ||| b) = fieldKK a ||| fieldKK b := BitVec.extractLsb'_or

theorem fieldNNN_or (a b : Word) : fieldNNN (a ||| b) = fieldNNN a ||| fieldNNN b :=
  BitVec.extractLsb'_or

theorem fieldX_eq (w : Word) : fieldX w = (w.extractLsb' 8 4).toFin := rfl

theorem fieldY_eq (w : Word) : fieldY w = (w.extractLsb' 4 4).toFin := rfl

/-! ### A placed field read back, and the fields it leaves zero -/

@[simp] theorem fieldT_placeX (x : Reg) : fieldT (placeX x) = 0 := by revert x; decide
@[simp] theorem extractX_placeX (x : Reg) : (placeX x).extractLsb' 8 4 = BitVec.ofFin (w := 4) x := by
  revert x; decide
@[simp] theorem extractY_placeX (x : Reg) : (placeX x).extractLsb' 4 4 = 0#4 := by revert x; decide
@[simp] theorem fieldN_placeX (x : Reg) : fieldN (placeX x) = 0 := by revert x; decide
@[simp] theorem fieldKK_placeX (x : Reg) : fieldKK (placeX x) = 0 := by revert x; decide

@[simp] theorem fieldT_placeY (y : Reg) : fieldT (placeY y) = 0 := by revert y; decide
@[simp] theorem extractX_placeY (y : Reg) : (placeY y).extractLsb' 8 4 = 0#4 := by revert y; decide
@[simp] theorem extractY_placeY (y : Reg) : (placeY y).extractLsb' 4 4 = BitVec.ofFin (w := 4) y := by
  revert y; decide
@[simp] theorem fieldN_placeY (y : Reg) : fieldN (placeY y) = 0 := by revert y; decide

@[simp] theorem fieldT_placeN (n : BitVec 4) : fieldT (placeN n) = 0 := by revert n; decide
@[simp] theorem extractX_placeN (n : BitVec 4) : (placeN n).extractLsb' 8 4 = 0#4 := by revert n; decide
@[simp] theorem extractY_placeN (n : BitVec 4) : (placeN n).extractLsb' 4 4 = 0#4 := by revert n; decide
@[simp] theorem fieldN_placeN (n : BitVec 4) : fieldN (placeN n) = n := by revert n; decide

@[simp] theorem fieldT_placeKK (kk : Byte) : fieldT (placeKK kk) = 0 := by revert kk; decide
@[simp] theorem extractX_placeKK (kk : Byte) : (placeKK kk).extractLsb' 8 4 = 0#4 := by
  revert kk; decide
@[simp] theorem fieldKK_placeKK (kk : Byte) : fieldKK (placeKK kk) = kk := by revert kk; decide

@[simp] theorem fieldT_placeNNN (nnn : BitVec 12) : fieldT (placeNNN nnn) = 0 := by
  apply BitVec.eq_of_getLsbD_eq
  intro i hi
  simp [fieldT, placeNNN]

@[simp] theorem fieldNNN_placeNNN (nnn : BitVec 12) : fieldNNN (placeNNN nnn) = nnn := by
  apply BitVec.eq_of_getLsbD_eq
  intro i hi
  have : i < 16 := by omega
  simp [fieldNNN, placeNNN, hi, this]

/-! ### Well-formedness (R55) -/

/-- An out-of-range operation cannot be written down. -/
theorem Instr.wellFormed_always (i : Instr) : i.wellFormed = true := by
  have hx : ∀ x : Reg, fitsNibble x.val = true := by decide
  have hn : ∀ n : BitVec 4, fitsNibble n.toNat = true := by decide
  have hk : ∀ kk : Byte, fitsByte kk.toNat = true := by decide
  have ha : ∀ nnn : BitVec 12, fitsAddress12 nnn.toNat = true := fun nnn => by
    simpa [fitsAddress12] using nnn.isLt
  cases i <;> simp [Instr.wellFormed, hx, hn, hk, ha]

end Sys2Proof
end

