-- ==== Sys2Proof/Laws/Memory.lean ====
section
/-! SUPPORT. The memory operations: a write is read back and leaves every other address alone
(R31, R32), and every operation keeps the canonical form. -/

namespace Sys2Proof.Machine.Memory

@[simp] theorem read_nil (a : Nat) : read [] a = Config.unwrittenByte := rfl

theorem read_cons (k : Nat) (c : Byte) (m : Memory) (a : Nat) :
    read ((k, c) :: m) a = if k = a then c else read m a := rfl

@[simp] theorem wf_nil : wf [] = true := rfl

theorem wfFrom_cons {lo k : Nat} {c : Byte} {m : Memory} :
    wfFrom lo ((k, c) :: m) = true ↔
      lo ≤ k ∧ k < Config.memSize ∧ c ≠ Config.unwrittenByte ∧ wfFrom (k + 1) m = true := by
  simp [wfFrom, and_assoc]

theorem wfFrom_mono {lo lo' : Nat} {m : Memory} (h : wfFrom lo m = true) (hl : lo' ≤ lo) :
    wfFrom lo' m = true := by
  cases m with
  | nil => rfl
  | cons e m =>
    obtain ⟨h1, h2⟩ := wfFrom_cons.mp h
    exact wfFrom_cons.mpr ⟨hl.trans h1, h2⟩

/-- Below the first listed address everything is unwritten. -/
theorem read_below {lo : Nat} {m : Memory} {a : Nat} (h : wfFrom lo m = true) (ha : a < lo) :
    read m a = Config.unwrittenByte := by
  induction m generalizing lo with
  | nil => rfl
  | cons e m ih =>
    obtain ⟨h1, -, -, h4⟩ := wfFrom_cons.mp h
    rw [read_cons, if_neg (by omega)]
    exact ih h4 (by omega)

/-- Above memory everything is unwritten. -/
theorem read_above {lo : Nat} {m : Memory} {a : Nat} (h : wfFrom lo m = true)
    (ha : Config.memSize ≤ a) : read m a = Config.unwrittenByte := by
  induction m generalizing lo with
  | nil => rfl
  | cons e m ih =>
    obtain ⟨-, h2, -, h4⟩ := wfFrom_cons.mp h
    rw [read_cons, if_neg (by omega)]
    exact ih h4

theorem read_entry_append_same (a : Nat) (b : Byte) (m : Memory)
    (hm : read m a = Config.unwrittenByte) : read (entry a b ++ m) a = b := by
  unfold entry
  split
  · next h => simpa [h] using hm
  · simp [read_cons]

theorem read_entry_append_other {a c : Nat} (b : Byte) (m : Memory) (h : c ≠ a) :
    read (entry a b ++ m) c = read m c := by
  unfold entry
  split
  · rfl
  · simp [read_cons, Ne.symm h]

/-- A write leaves every other address alone (R32). -/
theorem read_write_other (m : Memory) {a c : Nat} (b : Byte) (h : c ≠ a) :
    read (write m a b) c = read m c := by
  induction m with
  | nil =>
    have := read_entry_append_other b [] h
    simpa [write] using this
  | cons e m ih =>
    obtain ⟨k, x⟩ := e
    unfold write
    split
    · exact read_entry_append_other b _ h
    · split
      · next hk => rw [read_entry_append_other b _ h, read_cons, if_neg (by omega)]
      · rw [read_cons, read_cons, ih]

/-- A write is read back (R40). -/
theorem read_write_same {lo : Nat} {m : Memory} (a : Nat) (b : Byte) (h : wfFrom lo m = true) :
    read (write m a b) a = b := by
  induction m generalizing lo with
  | nil =>
    have := read_entry_append_same a b [] rfl
    simpa [write] using this
  | cons e m ih =>
    obtain ⟨k, x⟩ := e
    obtain ⟨h1, h2, h3, h4⟩ := wfFrom_cons.mp h
    unfold write
    split
    · next hk =>
      exact read_entry_append_same a b _ (read_below (wfFrom_cons.mpr ⟨le_refl k, h2, h3, h4⟩) hk)
    · split
      · next hk => exact read_entry_append_same a b _ (read_below h4 (by omega))
      · next hk => rw [read_cons, if_neg (Ne.symm hk), ih h4]

theorem wfFrom_entry_append {lo a : Nat} {b : Byte} {m : Memory} (hlo : lo ≤ a)
    (ha : a < Config.memSize) (hm : wfFrom (a + 1) m = true) : wfFrom lo (entry a b ++ m) = true := by
  unfold entry
  split
  · exact wfFrom_mono hm (by omega)
  · next hb => exact wfFrom_cons.mpr ⟨hlo, ha, hb, hm⟩

theorem wfFrom_write {lo : Nat} {m : Memory} {a : Nat} (b : Byte) (h : wfFrom lo m = true)
    (hlo : lo ≤ a) (ha : a < Config.memSize) : wfFrom lo (write m a b) = true := by
  induction m generalizing lo with
  | nil =>
    have := wfFrom_entry_append (b := b) hlo ha (m := []) rfl
    simpa [write] using this
  | cons e m ih =>
    obtain ⟨k, x⟩ := e
    obtain ⟨h1, h2, h3, h4⟩ := wfFrom_cons.mp h
    unfold write
    split
    · next hk => exact wfFrom_entry_append hlo ha (wfFrom_cons.mpr ⟨hk, h2, h3, h4⟩)
    · split
      · next hk => exact wfFrom_entry_append hlo ha (hk ▸ h4)
      · next hk => exact wfFrom_cons.mpr ⟨h1, h2, h3, ih h4 (by omega)⟩

/-- A write inside memory keeps the canonical form. -/
theorem wf_write {m : Memory} {a : Nat} (b : Byte) (h : wf m = true) (ha : a < Config.memSize) :
    wf (write m a b) = true :=
  wfFrom_write b h (Nat.zero_le a) ha

@[simp] theorem writeBytes_nil (m : Memory) (a : Nat) : writeBytes m a [] = m := rfl

theorem writeBytes_cons (m : Memory) (a : Nat) (b : Byte) (bs : List Byte) :
    writeBytes m a (b :: bs) = writeBytes (write m a b) (a + 1) bs := rfl

/-- A run of writes inside memory keeps the canonical form. -/
theorem wf_writeBytes {m : Memory} {a : Nat} {bs : List Byte} (h : wf m = true)
    (ha : a + bs.length ≤ Config.memSize) : wf (writeBytes m a bs) = true := by
  induction bs generalizing m a with
  | nil => exact h
  | cons b bs ih =>
    simp only [List.length_cons] at ha
    exact ih (wf_write b h (by omega)) (by omega)

/-- A run of writes leaves every address outside it alone (R32). -/
theorem read_writeBytes_outside (m : Memory) {a c : Nat} (bs : List Byte)
    (h : c < a ∨ a + bs.length ≤ c) : read (writeBytes m a bs) c = read m c := by
  induction bs generalizing m a with
  | nil => rfl
  | cons b bs ih =>
    simp only [List.length_cons] at h
    rw [writeBytes_cons, ih _ (by omega), read_write_other _ _ (by omega)]

/-- Byte `k` of a run of writes is read back at `a + k` (R32). -/
theorem read_writeBytes_inside {m : Memory} {a : Nat} {bs : List Byte} (h : wf m = true)
    (ha : a + bs.length ≤ Config.memSize) {k : Nat} (hk : k < bs.length) :
    read (writeBytes m a bs) (a + k) = bs[k] := by
  induction bs generalizing m a k with
  | nil => simp at hk
  | cons b bs ih =>
    simp only [List.length_cons] at ha hk
    rw [writeBytes_cons]
    cases k with
    | zero =>
      rw [read_writeBytes_outside _ _ (by omega)]
      exact read_write_same _ _ h
    | succ k =>
      have hw : wf (write m a b) = true := wf_write b h (by omega)
      have := ih (a := a + 1) hw (by omega) (k := k) (by omega)
      simpa [Nat.add_assoc, Nat.add_comm 1 k] using this

@[simp] theorem readBytes_length (m : Memory) (a n : Nat) : (readBytes m a n).length = n := by
  simp [readBytes]

@[simp] theorem readBytes_getElem (m : Memory) (a n k : Nat) (h : k < (readBytes m a n).length) :
    (readBytes m a n)[k] = read m (a + k) := by
  simp [readBytes]

end Sys2Proof.Machine.Memory
end

