-- ==== Sys2Proof/Laws/State.lean ====
section
/-! SUPPORT. One lemma per field per update of the state, each true by definition, so that no later
proof unfolds a record update; then what the compound updates are made of. -/

namespace Sys2Proof.Machine.State

/-! ### writeV -/

@[simp] theorem writeV_V (s : State) (x : Reg) (v : Byte) : (s.writeV x v).V = s.V.set x v := rfl
@[simp] theorem writeV_pc (s : State) (x : Reg) (v : Byte) : (s.writeV x v).pc = s.pc := rfl
@[simp] theorem writeV_I (s : State) (x : Reg) (v : Byte) : (s.writeV x v).I = s.I := rfl
@[simp] theorem writeV_sp (s : State) (x : Reg) (v : Byte) : (s.writeV x v).sp = s.sp := rfl
@[simp] theorem writeV_stack (s : State) (x : Reg) (v : Byte) : (s.writeV x v).stack = s.stack := rfl
@[simp] theorem writeV_dt (s : State) (x : Reg) (v : Byte) : (s.writeV x v).dt = s.dt := rfl
@[simp] theorem writeV_st (s : State) (x : Reg) (v : Byte) : (s.writeV x v).st = s.st := rfl
@[simp] theorem writeV_mem (s : State) (x : Reg) (v : Byte) : (s.writeV x v).mem = s.mem := rfl
@[simp] theorem writeV_fontBase (s : State) (x : Reg) (v : Byte) : (s.writeV x v).fontBase = s.fontBase := rfl
@[simp] theorem writeV_fb (s : State) (x : Reg) (v : Byte) : (s.writeV x v).fb = s.fb := rfl
@[simp] theorem writeV_K (s : State) (x : Reg) (v : Byte) : (s.writeV x v).K = s.K := rfl
@[simp] theorem writeV_ir (s : State) (x : Reg) (v : Byte) : (s.writeV x v).ir = s.ir := rfl
@[simp] theorem writeV_irValid (s : State) (x : Reg) (v : Byte) : (s.writeV x v).irValid = s.irValid := rfl
@[simp] theorem writeV_phase (s : State) (x : Reg) (v : Byte) : (s.writeV x v).phase = s.phase := rfl
@[simp] theorem writeV_stopCause (s : State) (x : Reg) (v : Byte) : (s.writeV x v).stopCause = s.stopCause := rfl
@[simp] theorem writeV_stopInfo (s : State) (x : Reg) (v : Byte) : (s.writeV x v).stopInfo = s.stopInfo := rfl
@[simp] theorem writeV_params (s : State) (x : Reg) (v : Byte) : (s.writeV x v).params = s.params := rfl
@[simp] theorem writeV_randCount (s : State) (x : Reg) (v : Byte) : (s.writeV x v).randCount = s.randCount := rfl
@[simp] theorem writeV_host (s : State) (x : Reg) (v : Byte) : (s.writeV x v).host = s.host := rfl

/-! ### writeI -/

@[simp] theorem writeI_V (s : State) (a : Addr) : (s.writeI a).V = s.V := rfl
@[simp] theorem writeI_pc (s : State) (a : Addr) : (s.writeI a).pc = s.pc := rfl
@[simp] theorem writeI_I (s : State) (a : Addr) : (s.writeI a).I = a := rfl
@[simp] theorem writeI_sp (s : State) (a : Addr) : (s.writeI a).sp = s.sp := rfl
@[simp] theorem writeI_stack (s : State) (a : Addr) : (s.writeI a).stack = s.stack := rfl
@[simp] theorem writeI_dt (s : State) (a : Addr) : (s.writeI a).dt = s.dt := rfl
@[simp] theorem writeI_st (s : State) (a : Addr) : (s.writeI a).st = s.st := rfl
@[simp] theorem writeI_mem (s : State) (a : Addr) : (s.writeI a).mem = s.mem := rfl
@[simp] theorem writeI_fontBase (s : State) (a : Addr) : (s.writeI a).fontBase = s.fontBase := rfl
@[simp] theorem writeI_fb (s : State) (a : Addr) : (s.writeI a).fb = s.fb := rfl
@[simp] theorem writeI_K (s : State) (a : Addr) : (s.writeI a).K = s.K := rfl
@[simp] theorem writeI_ir (s : State) (a : Addr) : (s.writeI a).ir = s.ir := rfl
@[simp] theorem writeI_irValid (s : State) (a : Addr) : (s.writeI a).irValid = s.irValid := rfl
@[simp] theorem writeI_phase (s : State) (a : Addr) : (s.writeI a).phase = s.phase := rfl
@[simp] theorem writeI_stopCause (s : State) (a : Addr) : (s.writeI a).stopCause = s.stopCause := rfl
@[simp] theorem writeI_stopInfo (s : State) (a : Addr) : (s.writeI a).stopInfo = s.stopInfo := rfl
@[simp] theorem writeI_params (s : State) (a : Addr) : (s.writeI a).params = s.params := rfl
@[simp] theorem writeI_randCount (s : State) (a : Addr) : (s.writeI a).randCount = s.randCount := rfl
@[simp] theorem writeI_host (s : State) (a : Addr) : (s.writeI a).host = s.host := rfl

/-! ### jumpTo -/

@[simp] theorem jumpTo_V (s : State) (a : Addr) : (s.jumpTo a).V = s.V := rfl
@[simp] theorem jumpTo_pc (s : State) (a : Addr) : (s.jumpTo a).pc = a := rfl
@[simp] theorem jumpTo_I (s : State) (a : Addr) : (s.jumpTo a).I = s.I := rfl
@[simp] theorem jumpTo_sp (s : State) (a : Addr) : (s.jumpTo a).sp = s.sp := rfl
@[simp] theorem jumpTo_stack (s : State) (a : Addr) : (s.jumpTo a).stack = s.stack := rfl
@[simp] theorem jumpTo_dt (s : State) (a : Addr) : (s.jumpTo a).dt = s.dt := rfl
@[simp] theorem jumpTo_st (s : State) (a : Addr) : (s.jumpTo a).st = s.st := rfl
@[simp] theorem jumpTo_mem (s : State) (a : Addr) : (s.jumpTo a).mem = s.mem := rfl
@[simp] theorem jumpTo_fontBase (s : State) (a : Addr) : (s.jumpTo a).fontBase = s.fontBase := rfl
@[simp] theorem jumpTo_fb (s : State) (a : Addr) : (s.jumpTo a).fb = s.fb := rfl
@[simp] theorem jumpTo_K (s : State) (a : Addr) : (s.jumpTo a).K = s.K := rfl
@[simp] theorem jumpTo_ir (s : State) (a : Addr) : (s.jumpTo a).ir = s.ir := rfl
@[simp] theorem jumpTo_irValid (s : State) (a : Addr) : (s.jumpTo a).irValid = s.irValid := rfl
@[simp] theorem jumpTo_phase (s : State) (a : Addr) : (s.jumpTo a).phase = s.phase := rfl
@[simp] theorem jumpTo_stopCause (s : State) (a : Addr) : (s.jumpTo a).stopCause = s.stopCause := rfl
@[simp] theorem jumpTo_stopInfo (s : State) (a : Addr) : (s.jumpTo a).stopInfo = s.stopInfo := rfl
@[simp] theorem jumpTo_params (s : State) (a : Addr) : (s.jumpTo a).params = s.params := rfl
@[simp] theorem jumpTo_randCount (s : State) (a : Addr) : (s.jumpTo a).randCount = s.randCount := rfl
@[simp] theorem jumpTo_host (s : State) (a : Addr) : (s.jumpTo a).host = s.host := rfl

/-! ### raiseStop -/

@[simp] theorem raiseStop_V (s : State) (c : StopCause) (w : Word) : (s.raiseStop c w).V = s.V := rfl
@[simp] theorem raiseStop_pc (s : State) (c : StopCause) (w : Word) : (s.raiseStop c w).pc = s.pc := rfl
@[simp] theorem raiseStop_I (s : State) (c : StopCause) (w : Word) : (s.raiseStop c w).I = s.I := rfl
@[simp] theorem raiseStop_sp (s : State) (c : StopCause) (w : Word) : (s.raiseStop c w).sp = s.sp := rfl
@[simp] theorem raiseStop_stack (s : State) (c : StopCause) (w : Word) : (s.raiseStop c w).stack = s.stack := rfl
@[simp] theorem raiseStop_dt (s : State) (c : StopCause) (w : Word) : (s.raiseStop c w).dt = s.dt := rfl
@[simp] theorem raiseStop_st (s : State) (c : StopCause) (w : Word) : (s.raiseStop c w).st = s.st := rfl
@[simp] theorem raiseStop_mem (s : State) (c : StopCause) (w : Word) : (s.raiseStop c w).mem = s.mem := rfl
@[simp] theorem raiseStop_fontBase (s : State) (c : StopCause) (w : Word) : (s.raiseStop c w).fontBase = s.fontBase := rfl
@[simp] theorem raiseStop_fb (s : State) (c : StopCause) (w : Word) : (s.raiseStop c w).fb = s.fb := rfl
@[simp] theorem raiseStop_K (s : State) (c : StopCause) (w : Word) : (s.raiseStop c w).K = s.K := rfl
@[simp] theorem raiseStop_ir (s : State) (c : StopCause) (w : Word) : (s.raiseStop c w).ir = s.ir := rfl
@[simp] theorem raiseStop_irValid (s : State) (c : StopCause) (w : Word) : (s.raiseStop c w).irValid = s.irValid := rfl
@[simp] theorem raiseStop_phase (s : State) (c : StopCause) (w : Word) : (s.raiseStop c w).phase = .stopped := rfl
@[simp] theorem raiseStop_stopCause (s : State) (c : StopCause) (w : Word) : (s.raiseStop c w).stopCause = c := rfl
@[simp] theorem raiseStop_stopInfo (s : State) (c : StopCause) (w : Word) : (s.raiseStop c w).stopInfo = w := rfl
@[simp] theorem raiseStop_params (s : State) (c : StopCause) (w : Word) : (s.raiseStop c w).params = s.params := rfl
@[simp] theorem raiseStop_randCount (s : State) (c : StopCause) (w : Word) : (s.raiseStop c w).randCount = s.randCount := rfl
@[simp] theorem raiseStop_host (s : State) (c : StopCause) (w : Word) : (s.raiseStop c w).host = s.host := rfl

/-! ### storeAtI -/

@[simp] theorem storeAtI_V (s : State) (bs : List Byte) : (s.storeAtI bs).V = s.V := rfl
@[simp] theorem storeAtI_pc (s : State) (bs : List Byte) : (s.storeAtI bs).pc = s.pc := rfl
@[simp] theorem storeAtI_I (s : State) (bs : List Byte) : (s.storeAtI bs).I = s.I := rfl
@[simp] theorem storeAtI_sp (s : State) (bs : List Byte) : (s.storeAtI bs).sp = s.sp := rfl
@[simp] theorem storeAtI_stack (s : State) (bs : List Byte) : (s.storeAtI bs).stack = s.stack := rfl
@[simp] theorem storeAtI_dt (s : State) (bs : List Byte) : (s.storeAtI bs).dt = s.dt := rfl
@[simp] theorem storeAtI_st (s : State) (bs : List Byte) : (s.storeAtI bs).st = s.st := rfl
@[simp] theorem storeAtI_mem (s : State) (bs : List Byte) : (s.storeAtI bs).mem = Memory.writeBytes s.mem s.I.toNat bs := rfl
@[simp] theorem storeAtI_fontBase (s : State) (bs : List Byte) : (s.storeAtI bs).fontBase = s.fontBase := rfl
@[simp] theorem storeAtI_fb (s : State) (bs : List Byte) : (s.storeAtI bs).fb = s.fb := rfl
@[simp] theorem storeAtI_K (s : State) (bs : List Byte) : (s.storeAtI bs).K = s.K := rfl
@[simp] theorem storeAtI_ir (s : State) (bs : List Byte) : (s.storeAtI bs).ir = s.ir := rfl
@[simp] theorem storeAtI_irValid (s : State) (bs : List Byte) : (s.storeAtI bs).irValid = s.irValid := rfl
@[simp] theorem storeAtI_phase (s : State) (bs : List Byte) : (s.storeAtI bs).phase = s.phase := rfl
@[simp] theorem storeAtI_stopCause (s : State) (bs : List Byte) : (s.storeAtI bs).stopCause = s.stopCause := rfl
@[simp] theorem storeAtI_stopInfo (s : State) (bs : List Byte) : (s.storeAtI bs).stopInfo = s.stopInfo := rfl
@[simp] theorem storeAtI_params (s : State) (bs : List Byte) : (s.storeAtI bs).params = s.params := rfl
@[simp] theorem storeAtI_randCount (s : State) (bs : List Byte) : (s.storeAtI bs).randCount = s.randCount := rfl
@[simp] theorem storeAtI_host (s : State) (bs : List Byte) : (s.storeAtI bs).host = s.host := rfl

/-! ### consumeRandom -/

@[simp] theorem consumeRandom_V (s : State) : (s.consumeRandom).V = s.V := rfl
@[simp] theorem consumeRandom_pc (s : State) : (s.consumeRandom).pc = s.pc := rfl
@[simp] theorem consumeRandom_I (s : State) : (s.consumeRandom).I = s.I := rfl
@[simp] theorem consumeRandom_sp (s : State) : (s.consumeRandom).sp = s.sp := rfl
@[simp] theorem consumeRandom_stack (s : State) : (s.consumeRandom).stack = s.stack := rfl
@[simp] theorem consumeRandom_dt (s : State) : (s.consumeRandom).dt = s.dt := rfl
@[simp] theorem consumeRandom_st (s : State) : (s.consumeRandom).st = s.st := rfl
@[simp] theorem consumeRandom_mem (s : State) : (s.consumeRandom).mem = s.mem := rfl
@[simp] theorem consumeRandom_fontBase (s : State) : (s.consumeRandom).fontBase = s.fontBase := rfl
@[simp] theorem consumeRandom_fb (s : State) : (s.consumeRandom).fb = s.fb := rfl
@[simp] theorem consumeRandom_K (s : State) : (s.consumeRandom).K = s.K := rfl
@[simp] theorem consumeRandom_ir (s : State) : (s.consumeRandom).ir = s.ir := rfl
@[simp] theorem consumeRandom_irValid (s : State) : (s.consumeRandom).irValid = s.irValid := rfl
@[simp] theorem consumeRandom_phase (s : State) : (s.consumeRandom).phase = s.phase := rfl
@[simp] theorem consumeRandom_stopCause (s : State) : (s.consumeRandom).stopCause = s.stopCause := rfl
@[simp] theorem consumeRandom_stopInfo (s : State) : (s.consumeRandom).stopInfo = s.stopInfo := rfl
@[simp] theorem consumeRandom_params (s : State) : (s.consumeRandom).params = s.params := rfl
@[simp] theorem consumeRandom_randCount (s : State) : (s.consumeRandom).randCount = s.randCount + 1 := rfl
@[simp] theorem consumeRandom_host (s : State) : (s.consumeRandom).host = s.host := rfl

/-! ### latchWord -/

@[simp] theorem latchWord_V (s : State) (w : Word) : (s.latchWord w).V = s.V := rfl
@[simp] theorem latchWord_pc (s : State) (w : Word) : (s.latchWord w).pc = s.pc := rfl
@[simp] theorem latchWord_I (s : State) (w : Word) : (s.latchWord w).I = s.I := rfl
@[simp] theorem latchWord_sp (s : State) (w : Word) : (s.latchWord w).sp = s.sp := rfl
@[simp] theorem latchWord_stack (s : State) (w : Word) : (s.latchWord w).stack = s.stack := rfl
@[simp] theorem latchWord_dt (s : State) (w : Word) : (s.latchWord w).dt = s.dt := rfl
@[simp] theorem latchWord_st (s : State) (w : Word) : (s.latchWord w).st = s.st := rfl
@[simp] theorem latchWord_mem (s : State) (w : Word) : (s.latchWord w).mem = s.mem := rfl
@[simp] theorem latchWord_fontBase (s : State) (w : Word) : (s.latchWord w).fontBase = s.fontBase := rfl
@[simp] theorem latchWord_fb (s : State) (w : Word) : (s.latchWord w).fb = s.fb := rfl
@[simp] theorem latchWord_K (s : State) (w : Word) : (s.latchWord w).K = s.K := rfl
@[simp] theorem latchWord_ir (s : State) (w : Word) : (s.latchWord w).ir = w := rfl
@[simp] theorem latchWord_irValid (s : State) (w : Word) : (s.latchWord w).irValid = true := rfl
@[simp] theorem latchWord_phase (s : State) (w : Word) : (s.latchWord w).phase = .decode := rfl
@[simp] theorem latchWord_stopCause (s : State) (w : Word) : (s.latchWord w).stopCause = s.stopCause := rfl
@[simp] theorem latchWord_stopInfo (s : State) (w : Word) : (s.latchWord w).stopInfo = s.stopInfo := rfl
@[simp] theorem latchWord_params (s : State) (w : Word) : (s.latchWord w).params = s.params := rfl
@[simp] theorem latchWord_randCount (s : State) (w : Word) : (s.latchWord w).randCount = s.randCount := rfl
@[simp] theorem latchWord_host (s : State) (w : Word) : (s.latchWord w).host = s.host := rfl

/-! ### enterExecute -/

@[simp] theorem enterExecute_V (s : State) : (s.enterExecute).V = s.V := rfl
@[simp] theorem enterExecute_pc (s : State) : (s.enterExecute).pc = s.pc := rfl
@[simp] theorem enterExecute_I (s : State) : (s.enterExecute).I = s.I := rfl
@[simp] theorem enterExecute_sp (s : State) : (s.enterExecute).sp = s.sp := rfl
@[simp] theorem enterExecute_stack (s : State) : (s.enterExecute).stack = s.stack := rfl
@[simp] theorem enterExecute_dt (s : State) : (s.enterExecute).dt = s.dt := rfl
@[simp] theorem enterExecute_st (s : State) : (s.enterExecute).st = s.st := rfl
@[simp] theorem enterExecute_mem (s : State) : (s.enterExecute).mem = s.mem := rfl
@[simp] theorem enterExecute_fontBase (s : State) : (s.enterExecute).fontBase = s.fontBase := rfl
@[simp] theorem enterExecute_fb (s : State) : (s.enterExecute).fb = s.fb := rfl
@[simp] theorem enterExecute_K (s : State) : (s.enterExecute).K = s.K := rfl
@[simp] theorem enterExecute_ir (s : State) : (s.enterExecute).ir = s.ir := rfl
@[simp] theorem enterExecute_irValid (s : State) : (s.enterExecute).irValid = s.irValid := rfl
@[simp] theorem enterExecute_phase (s : State) : (s.enterExecute).phase = .execute := rfl
@[simp] theorem enterExecute_stopCause (s : State) : (s.enterExecute).stopCause = s.stopCause := rfl
@[simp] theorem enterExecute_stopInfo (s : State) : (s.enterExecute).stopInfo = s.stopInfo := rfl
@[simp] theorem enterExecute_params (s : State) : (s.enterExecute).params = s.params := rfl
@[simp] theorem enterExecute_randCount (s : State) : (s.enterExecute).randCount = s.randCount := rfl
@[simp] theorem enterExecute_host (s : State) : (s.enterExecute).host = s.host := rfl

/-! ### tick -/

@[simp] theorem tick_V (s : State) : (s.tick).V = s.V := rfl
@[simp] theorem tick_pc (s : State) : (s.tick).pc = s.pc := rfl
@[simp] theorem tick_I (s : State) : (s.tick).I = s.I := rfl
@[simp] theorem tick_sp (s : State) : (s.tick).sp = s.sp := rfl
@[simp] theorem tick_stack (s : State) : (s.tick).stack = s.stack := rfl
@[simp] theorem tick_dt (s : State) : (s.tick).dt = tickDown s.dt := rfl
@[simp] theorem tick_st (s : State) : (s.tick).st = tickDown s.st := rfl
@[simp] theorem tick_mem (s : State) : (s.tick).mem = s.mem := rfl
@[simp] theorem tick_fontBase (s : State) : (s.tick).fontBase = s.fontBase := rfl
@[simp] theorem tick_fb (s : State) : (s.tick).fb = s.fb := rfl
@[simp] theorem tick_K (s : State) : (s.tick).K = s.K := rfl
@[simp] theorem tick_ir (s : State) : (s.tick).ir = s.ir := rfl
@[simp] theorem tick_irValid (s : State) : (s.tick).irValid = s.irValid := rfl
@[simp] theorem tick_phase (s : State) : (s.tick).phase = s.phase := rfl
@[simp] theorem tick_stopCause (s : State) : (s.tick).stopCause = s.stopCause := rfl
@[simp] theorem tick_stopInfo (s : State) : (s.tick).stopInfo = s.stopInfo := rfl
@[simp] theorem tick_params (s : State) : (s.tick).params = s.params := rfl
@[simp] theorem tick_randCount (s : State) : (s.tick).randCount = s.randCount := rfl
@[simp] theorem tick_host (s : State) : (s.tick).host = s.host := rfl

/-! ### setKey -/

@[simp] theorem setKey_V (s : State) (i : KeyIndex) (b : Bool) : (s.setKey i b).V = s.V := rfl
@[simp] theorem setKey_pc (s : State) (i : KeyIndex) (b : Bool) : (s.setKey i b).pc = s.pc := rfl
@[simp] theorem setKey_I (s : State) (i : KeyIndex) (b : Bool) : (s.setKey i b).I = s.I := rfl
@[simp] theorem setKey_sp (s : State) (i : KeyIndex) (b : Bool) : (s.setKey i b).sp = s.sp := rfl
@[simp] theorem setKey_stack (s : State) (i : KeyIndex) (b : Bool) : (s.setKey i b).stack = s.stack := rfl
@[simp] theorem setKey_dt (s : State) (i : KeyIndex) (b : Bool) : (s.setKey i b).dt = s.dt := rfl
@[simp] theorem setKey_st (s : State) (i : KeyIndex) (b : Bool) : (s.setKey i b).st = s.st := rfl
@[simp] theorem setKey_mem (s : State) (i : KeyIndex) (b : Bool) : (s.setKey i b).mem = s.mem := rfl
@[simp] theorem setKey_fontBase (s : State) (i : KeyIndex) (b : Bool) : (s.setKey i b).fontBase = s.fontBase := rfl
@[simp] theorem setKey_fb (s : State) (i : KeyIndex) (b : Bool) : (s.setKey i b).fb = s.fb := rfl
@[simp] theorem setKey_K (s : State) (i : KeyIndex) (b : Bool) : (s.setKey i b).K = s.K.set i b := rfl
@[simp] theorem setKey_ir (s : State) (i : KeyIndex) (b : Bool) : (s.setKey i b).ir = s.ir := rfl
@[simp] theorem setKey_irValid (s : State) (i : KeyIndex) (b : Bool) : (s.setKey i b).irValid = s.irValid := rfl
@[simp] theorem setKey_phase (s : State) (i : KeyIndex) (b : Bool) : (s.setKey i b).phase = s.phase := rfl
@[simp] theorem setKey_stopCause (s : State) (i : KeyIndex) (b : Bool) : (s.setKey i b).stopCause = s.stopCause := rfl
@[simp] theorem setKey_stopInfo (s : State) (i : KeyIndex) (b : Bool) : (s.setKey i b).stopInfo = s.stopInfo := rfl
@[simp] theorem setKey_params (s : State) (i : KeyIndex) (b : Bool) : (s.setKey i b).params = s.params := rfl
@[simp] theorem setKey_randCount (s : State) (i : KeyIndex) (b : Bool) : (s.setKey i b).randCount = s.randCount := rfl
@[simp] theorem setKey_host (s : State) (i : KeyIndex) (b : Bool) : (s.setKey i b).host = s.host := rfl

/-! ### installFont -/

@[simp] theorem installFont_V (s : State) (a : Addr) : (s.installFont a).V = s.V := rfl
@[simp] theorem installFont_pc (s : State) (a : Addr) : (s.installFont a).pc = s.pc := rfl
@[simp] theorem installFont_I (s : State) (a : Addr) : (s.installFont a).I = s.I := rfl
@[simp] theorem installFont_sp (s : State) (a : Addr) : (s.installFont a).sp = s.sp := rfl
@[simp] theorem installFont_stack (s : State) (a : Addr) : (s.installFont a).stack = s.stack := rfl
@[simp] theorem installFont_dt (s : State) (a : Addr) : (s.installFont a).dt = s.dt := rfl
@[simp] theorem installFont_st (s : State) (a : Addr) : (s.installFont a).st = s.st := rfl
@[simp] theorem installFont_mem (s : State) (a : Addr) : (s.installFont a).mem = Memory.writeBytes s.mem a.toNat s.params.fontRom.toList := rfl
@[simp] theorem installFont_fontBase (s : State) (a : Addr) : (s.installFont a).fontBase = a := rfl
@[simp] theorem installFont_fb (s : State) (a : Addr) : (s.installFont a).fb = s.fb := rfl
@[simp] theorem installFont_K (s : State) (a : Addr) : (s.installFont a).K = s.K := rfl
@[simp] theorem installFont_ir (s : State) (a : Addr) : (s.installFont a).ir = s.ir := rfl
@[simp] theorem installFont_irValid (s : State) (a : Addr) : (s.installFont a).irValid = s.irValid := rfl
@[simp] theorem installFont_phase (s : State) (a : Addr) : (s.installFont a).phase = s.phase := rfl
@[simp] theorem installFont_stopCause (s : State) (a : Addr) : (s.installFont a).stopCause = s.stopCause := rfl
@[simp] theorem installFont_stopInfo (s : State) (a : Addr) : (s.installFont a).stopInfo = s.stopInfo := rfl
@[simp] theorem installFont_params (s : State) (a : Addr) : (s.installFont a).params = s.params := rfl
@[simp] theorem installFont_randCount (s : State) (a : Addr) : (s.installFont a).randCount = s.randCount := rfl
@[simp] theorem installFont_host (s : State) (a : Addr) : (s.installFont a).host = s.host := rfl

/-! ### loadProgram -/

@[simp] theorem loadProgram_V (s : State) (bs : List Byte) : (s.loadProgram bs).V = s.V := rfl
@[simp] theorem loadProgram_pc (s : State) (bs : List Byte) : (s.loadProgram bs).pc = s.pc := rfl
@[simp] theorem loadProgram_I (s : State) (bs : List Byte) : (s.loadProgram bs).I = s.I := rfl
@[simp] theorem loadProgram_sp (s : State) (bs : List Byte) : (s.loadProgram bs).sp = s.sp := rfl
@[simp] theorem loadProgram_stack (s : State) (bs : List Byte) : (s.loadProgram bs).stack = s.stack := rfl
@[simp] theorem loadProgram_dt (s : State) (bs : List Byte) : (s.loadProgram bs).dt = s.dt := rfl
@[simp] theorem loadProgram_st (s : State) (bs : List Byte) : (s.loadProgram bs).st = s.st := rfl
@[simp] theorem loadProgram_mem (s : State) (bs : List Byte) : (s.loadProgram bs).mem = Memory.writeBytes s.mem Config.programBase bs := rfl
@[simp] theorem loadProgram_fontBase (s : State) (bs : List Byte) : (s.loadProgram bs).fontBase = s.fontBase := rfl
@[simp] theorem loadProgram_fb (s : State) (bs : List Byte) : (s.loadProgram bs).fb = s.fb := rfl
@[simp] theorem loadProgram_K (s : State) (bs : List Byte) : (s.loadProgram bs).K = s.K := rfl
@[simp] theorem loadProgram_ir (s : State) (bs : List Byte) : (s.loadProgram bs).ir = s.ir := rfl
@[simp] theorem loadProgram_irValid (s : State) (bs : List Byte) : (s.loadProgram bs).irValid = s.irValid := rfl
@[simp] theorem loadProgram_phase (s : State) (bs : List Byte) : (s.loadProgram bs).phase = s.phase := rfl
@[simp] theorem loadProgram_stopCause (s : State) (bs : List Byte) : (s.loadProgram bs).stopCause = s.stopCause := rfl
@[simp] theorem loadProgram_stopInfo (s : State) (bs : List Byte) : (s.loadProgram bs).stopInfo = s.stopInfo := rfl
@[simp] theorem loadProgram_params (s : State) (bs : List Byte) : (s.loadProgram bs).params = s.params := rfl
@[simp] theorem loadProgram_randCount (s : State) (bs : List Byte) : (s.loadProgram bs).randCount = s.randCount := rfl
@[simp] theorem loadProgram_host (s : State) (bs : List Byte) : (s.loadProgram bs).host = s.host := rfl

/-! ### The compound updates -/

@[simp] theorem advance_eq (s : State) : s.advance = s.jumpTo (s.pc + 2) := rfl

@[simp] theorem condAdvance_eq (s : State) (p : Bool) :
    s.condAdvance p = s.jumpTo (if p then s.pc + 4 else s.pc + 2) := rfl

@[simp] theorem writeResultAndFlag_eq (s : State) (x : Reg) (r f : Byte) :
    s.writeResultAndFlag x r f = (s.writeV x r).writeV VF f := rfl

@[simp] theorem writeMasked_eq (s : State) (x : Reg) (r kk : Byte) :
    s.writeMasked x r kk = s.writeV x (r &&& kk) := rfl

/-- Writing the collision signal is a record update of `V` alone, whatever the parameter says. -/
theorem writeCollision_eq (s : State) (c : Bool) :
    s.writeCollision c =
      { s with V := if s.params.drawWritesVF then s.V.set VF (flagByte c) else s.V } := by
  unfold writeCollision
  split <;> rfl

/-- The end of a step is a record update of `phase` alone. -/
theorem endStep_eq (s : State) :
    s.endStep = { s with phase := if s.phase = .stopped then .stopped else .fetch } := by
  unfold endStep
  split
  · next h => rw [← h]
  · rfl

end Sys2Proof.Machine.State
end

