-- ==== Sys2Proof/Laws/Ops.lean ====
section
/-! SUPPORT. One lemma per shared operation that says what it can do: registers, flags, the data
access through `I`, the call stack, keys, fetch, and the transfers of ToBCD, StoreRegs and LoadRegs. -/

namespace Sys2Proof.Machine

/-! ### Registers and flags -/

theorem readV_def (s : State) (x : Reg) : s.readV x = s.V[x] := rfl

/-- What every register reads as after a register write (R10). -/
theorem readV_writeV (s : State) (x r : Reg) (v : Byte) :
    (s.writeV x v).readV r = if r = x then v else s.readV r := by
  simp only [State.readV, State.writeV]
  by_cases h : r = x
  · subst h; simp
  · have : x.val ≠ r.val := fun hc => h (Fin.ext hc.symm)
    simp [h, this]

@[simp] theorem readV_jumpTo (s : State) (a : Addr) (r : Reg) : (s.jumpTo a).readV r = s.readV r := rfl

@[simp] theorem flagByte_true : flagByte true = 0x01#8 := rfl

@[simp] theorem flagByte_false : flagByte false = 0x00#8 := rfl

theorem flagByte_toNat (b : Bool) : (flagByte b).toNat = if b then 1 else 0 := by cases b <;> rfl

/-- A flag is 0x00 or 0x01 (R11). -/
theorem flagByte_zero_or_one (b : Bool) : flagByte b = 0x00#8 ∨ flagByte b = 0x01#8 := by
  cases b
  · exact .inl rfl
  · exact .inr rfl

theorem carryFlag_toNat (a b : Byte) :
    (carryFlag a b).toNat = if a.toNat + b.toNat > 255 then 1 else 0 := by
  simp [carryFlag, flagByte_toNat]

theorem noBorrowFlag_toNat (a b : Byte) :
    (noBorrowFlag a b).toNat = if a.toNat ≥ b.toNat then 1 else 0 := by
  simp [noBorrowFlag, flagByte_toNat]

theorem shiftedOutRight_toNat (a : Byte) : (shiftedOutRight a).toNat = a.toNat % 2 := by
  revert a; decide

theorem shiftedOutLeft_toNat (a : Byte) : (shiftedOutLeft a).toNat = a.toNat / 128 := by
  revert a; decide

/-! ### Operand forms -/

@[simp] theorem zextAddress_toNat (nnn : BitVec 12) : (zextAddress nnn).toNat = nnn.toNat := by
  have := nnn.isLt
  simp [zextAddress]
  omega

@[simp] theorem zextByte_toNat (v : Byte) : (zextByte v).toNat = v.toNat := by
  have := v.isLt
  simp [zextByte]
  omega

/-- A data access fits when it is empty or its last byte is at most 0xFFF (R31, R36). -/
theorem accessFits_iff (a n : Nat) : accessFits a n = true ↔ n = 0 ∨ a + n ≤ Config.memSize := by
  simp [accessFits]

/-- `max(I, 0x1000)` (R174). -/
theorem firstOutOfRange_toNat (a : Addr) : (firstOutOfRange a).toNat = max a.toNat 0x1000 := by
  unfold firstOutOfRange
  split
  · next h =>
    have : a.toNat < 4096 := h
    rw [Nat.max_eq_right (by omega)]
    rfl
  · next h =>
    have : ¬ a.toNat < 4096 := h
    rw [Nat.max_eq_left (by omega)]

/-- A key operand names the key whose index it is (R116). -/
theorem keyOperand_eq_some {v : Byte} {k : KeyIndex} : keyOperand v = some k ↔ v.toNat = k.val := by
  unfold keyOperand
  split
  · next h => simp [Fin.ext_iff]
  · next h =>
    have := k.isLt
    simp
    omega

/-- A key operand above 0x0F names none (R176). -/
theorem keyOperand_eq_none {v : Byte} : keyOperand v = none ↔ v.toNat > 0x0F := by
  unfold keyOperand
  split
  · next h => simp; omega
  · next h => simp; omega

/-! ### The shared operations -/

/-- A data access either has its whole effect or stops with DATA_BOUNDS and none (R174, R180). -/
theorem withAccess_next {s t e : State} {n : Nat} (h : s.withAccess n e = .next t) :
    (accessFits s.I.toNat n = true ∧ t = e) ∨
      (accessFits s.I.toNat n = false ∧ t = s.raiseStop .dataBounds (firstOutOfRange s.I)) := by
  unfold State.withAccess at h
  split at h
  · next hf => exact .inl ⟨hf, by cases h; rfl⟩
  · next hf => exact .inr ⟨by simpa using hf, by cases h; rfl⟩

theorem withAccess_fits {s : State} (e : State) {n : Nat} (h : accessFits s.I.toNat n = true) :
    s.withAccess n e = .next e := by simp [State.withAccess, h]

theorem withAccess_stops {s : State} (e : State) {n : Nat} (h : accessFits s.I.toNat n = false) :
    s.withAccess n e = .next (s.raiseStop .dataBounds (firstOutOfRange s.I)) := by
  simp [State.withAccess, h]

/-- A push with a free frame (R138). -/
theorem pushReturn_free {s : State} (h : s.sp < s.params.stackDepth) :
    s.pushReturn = some { s with stack := s.stack.set s.sp (s.pc + 2), sp := s.sp + 1 } := by
  simp [State.pushReturn, h]

/-- A push with all frames live (R175). -/
theorem pushReturn_full {s : State} (h : ¬ s.sp < s.params.stackDepth) : s.pushReturn = none := by
  simp [State.pushReturn, h]

/-- The return primitive with a live frame (R139). -/
theorem popReturn_live {s : State} {n : Nat} {a : Addr} (hs : s.sp = n + 1) (ha : s.stack[n]? = some a) :
    s.popReturn = { s with sp := n, pc := a } := by
  simp [State.popReturn, hs, ha]

/-- The return primitive on an empty stack changes nothing (R70). -/
theorem popReturn_empty {s : State} (h : s.sp = 0) : s.popReturn = s := by
  simp [State.popReturn, h]

/-- The return primitive pops the most recent live entry, or changes nothing: with no frame live, or with
no entry there, which `State.stackFits` rules out (R70, R139). -/
theorem popReturn_cases (s : State) :
    (∃ n a, s.sp = n + 1 ∧ s.stack[n]? = some a ∧ s.popReturn = { s with sp := n, pc := a }) ∨
      ((s.sp = 0 ∨ s.stack.length < s.sp) ∧ s.popReturn = s) := by
  cases hs : s.sp with
  | zero => exact .inr ⟨.inl rfl, popReturn_empty hs⟩
  | succ n =>
    cases ha : s.stack[n]? with
    | some a => exact .inl ⟨n, a, rfl, ha, popReturn_live hs ha⟩
    | none => exact .inr ⟨.inr (by have := List.getElem?_eq_none_iff.mp ha; omega), by
        simp [State.popReturn, hs, ha]⟩

/-- A skip on a key: a conditional advance, or the stop KEY_INDEX (R116, R117, R176). -/
theorem skipOnKey_next {s t : State} {x : Reg} {wanted : Bool} (h : s.skipOnKey x wanted = .next t) :
    (∃ k, (s.readV x).toNat = k.val ∧ t = s.condAdvance (s.isDown k == wanted)) ∨
      ((s.readV x).toNat > 0x0F ∧ t = s.raiseStop .keyIndex (zextByte (s.readV x))) := by
  unfold State.skipOnKey at h
  split at h
  · next k hk => exact .inl ⟨k, keyOperand_eq_some.mp hk, by cases h; rfl⟩
  · next hk => exact .inr ⟨keyOperand_eq_none.mp hk, by cases h; rfl⟩

/-- The key `firstDown` finds is pressed and no lower key is (R119). -/
theorem firstDown_some {s : State} {k : KeyIndex} :
    s.firstDown = some k ↔ s.isDown k = true ∧ ∀ j < k, s.isDown j = false := by
  unfold State.firstDown
  rw [List.find?_eq_some_iff_getElem]
  constructor
  · rintro ⟨hk, i, hi, he, hl⟩
    have hik : i = k.val := by simpa [Fin.ext_iff] using he
    refine ⟨hk, fun j hj => ?_⟩
    have := hl j.val (by rw [hik]; exact hj)
    simpa using this
  · rintro ⟨hk, hl⟩
    refine ⟨hk, k.val, by simp, by simp, fun j hj => ?_⟩
    have := hl ⟨j, by omega⟩ hj
    simpa using this

/-- `firstDown` finds no key exactly when none is pressed (R119). -/
theorem firstDown_none {s : State} : s.firstDown = none ↔ ∀ k, s.isDown k = false := by
  simp [State.firstDown, List.find?_eq_none]

/-- The word fetched, when both bytes exist (R33, R132). -/
theorem fetchWord_some {s : State} {w : Word} :
    s.fetchWord = some w ↔
      s.pc.toNat ≤ Config.lastFetchPc ∧
        w = wordOfBytes (Memory.read s.mem s.pc.toNat) (Memory.read s.mem (s.pc.toNat + 1)) := by
  unfold State.fetchWord
  split
  · next h => simp [h, eq_comm]
  · next h => simp [h]

theorem fetchWord_none {s : State} : s.fetchWord = none ↔ s.pc.toNat > Config.lastFetchPc := by
  unfold State.fetchWord
  split
  · next h => simp; omega
  · next h => simp; omega

/-! ### Transfers -/

@[simp] theorem bcdDigits_length (v : Byte) : (bcdDigits v).length = 3 := rfl

@[simp] theorem regBytes_length (s : State) (x : Reg) : (s.regBytes x).length = x.val + 1 := by
  simp [State.regBytes]

/-- Byte `k` that StoreRegs stores is register `k` (R100). -/
theorem regBytes_getElem (s : State) (x : Reg) (k : Nat) (h : k < (s.regBytes x).length) :
    (s.regBytes x)[k] = s.readV ⟨k, by simp [State.regBytes] at h; omega⟩ := by
  simp [State.regBytes, State.readV]

theorem loadRegsFrom_cons (k : Nat) (b : Byte) (bs : List Byte) (V : Vector Byte 16) :
    loadRegsFrom k (b :: bs) V = loadRegsFrom (k + 1) bs (V.setIfInBounds k b) := rfl

/-- Register `r` after a load of bytes into the registers from `k` up (R101). -/
theorem loadRegsFrom_getElem (k : Nat) (bs : List Byte) (V : Vector Byte 16) (r : Nat) (hr : r < 16) :
    (loadRegsFrom k bs V)[r] = if h : k ≤ r ∧ r - k < bs.length then bs[r - k]'h.2 else V[r] := by
  induction bs generalizing k V with
  | nil => simp [loadRegsFrom]
  | cons b bs ih =>
    rw [loadRegsFrom_cons, ih]
    by_cases h : k = r
    · subst h
      simp
    · by_cases h1 : k + 1 ≤ r ∧ r - (k + 1) < bs.length
      · have h2 : k ≤ r ∧ r - k < (b :: bs).length := ⟨by omega, by simp; omega⟩
        have h3 : r - k = (r - (k + 1)) + 1 := by omega
        rw [dif_pos h1, dif_pos h2]
        simp [h3]
      · have h2 : ¬ (k ≤ r ∧ r - k < (b :: bs).length) := by simp; omega
        rw [dif_neg h1, dif_neg h2]
        simp [h]

end Sys2Proof.Machine
end

