-- ==== Sys2Proof/Laws/Exec.lean ====
section
/-! SUPPORT. What an operation does to the phase and the stop record: it leaves them alone, or it
stops and does nothing else (R172, R180). -/

namespace Sys2Proof.Machine

/-- A Call pushes and jumps, or stops with all frames live (R72, R175). -/
theorem execCall_next {nnn : BitVec 12} {s t : State} (h : execCall nnn s = .next t) :
    (s.sp < s.params.stackDepth ∧
      t = { s with stack := s.stack.set s.sp (s.pc + 2), sp := s.sp + 1, pc := zextAddress nnn }) ∨
    (¬ s.sp < s.params.stackDepth ∧ t = s.raiseStop .stackOverflow (encode (.call nnn))) := by
  unfold execCall at h
  by_cases hs : s.sp < s.params.stackDepth
  · rw [pushReturn_free hs] at h
    cases h
    exact .inl ⟨hs, rfl⟩
  · rw [pushReturn_full hs] at h
    cases h
    exact .inr ⟨hs, rfl⟩

/-- An operation leaves phase, cause and datum alone, or it stops and changes nothing else. -/
theorem exec_runs_or_stops {i : Instr} {s t : State} (h : exec i s = .next t) :
    (t.phase = s.phase ∧ t.stopCause = s.stopCause ∧ t.stopInfo = s.stopInfo) ∨
      ∃ c n, c ≠ .none ∧ t = s.raiseStop c n := by
  have access : ∀ {n : Nat} {e : State}, s.withAccess n e = .next t →
      (e.phase = s.phase ∧ e.stopCause = s.stopCause ∧ e.stopInfo = s.stopInfo) →
      (t.phase = s.phase ∧ t.stopCause = s.stopCause ∧ t.stopInfo = s.stopInfo) ∨
        ∃ c n, c ≠ .none ∧ t = s.raiseStop c n := by
    intro n e h he
    rcases withAccess_next h with ⟨-, h⟩ | ⟨-, h⟩
    · exact .inl (h ▸ he)
    · exact .inr ⟨_, _, by decide, h⟩
  have key : ∀ {x : Reg} {wanted : Bool}, s.skipOnKey x wanted = .next t →
      (t.phase = s.phase ∧ t.stopCause = s.stopCause ∧ t.stopInfo = s.stopInfo) ∨
        ∃ c n, c ≠ .none ∧ t = s.raiseStop c n := by
    intro x wanted h
    rcases skipOnKey_next h with ⟨k, -, h⟩ | ⟨-, h⟩
    · exact .inl (h ▸ ⟨rfl, rfl, rfl⟩)
    · exact .inr ⟨_, _, by decide, h⟩
  cases i
  case call nnn =>
    rcases execCall_next h with ⟨_, he⟩ | ⟨-, he⟩
    · exact .inl (he ▸ ⟨rfl, rfl, rfl⟩)
    · exact .inr ⟨_, _, by decide, he⟩
  case ret =>
    cases h
    left
    rcases popReturn_cases s with ⟨n, a, -, -, h⟩ | ⟨-, h⟩ <;> rw [h] <;> exact ⟨rfl, rfl, rfl⟩
  case waitKey x =>
    left
    simp only [exec, execWaitKey] at h
    split at h <;> cases h <;> exact ⟨rfl, rfl, rfl⟩
  case draw x y n =>
    refine access h ?_
    simp only [State.drawSprite, State.writeCollision]
    split <;> exact ⟨rfl, rfl, rfl⟩
  case toBCD x => exact access h ⟨rfl, rfl, rfl⟩
  case storeRegs x => exact access h ⟨rfl, rfl, rfl⟩
  case loadRegs x => exact access h ⟨rfl, rfl, rfl⟩
  case skipKeyDown x => exact key h
  case skipKeyUp x => exact key h
  all_goals exact .inl (by cases h; exact ⟨rfl, rfl, rfl⟩)

end Sys2Proof.Machine
end

