-- ==== Sys2Proof/Laws/PerInstr.lean ====
section
/-! SUPPORT. Per instruction: the top nibble of its encoding is its family (R51, R52, R54). -/

namespace Sys2Proof.Laws.Family

/-- The family of an operation: the top nibble of its row's pattern (R54). -/
def nibble : Instr → BitVec 4
  | .clear => 0x0#4
  | .ret => 0x0#4
  | .jump _ => 0x1#4
  | .call _ => 0x2#4
  | .skipEq _ _ => 0x3#4
  | .skipNeq _ _ => 0x4#4
  | .skipEqReg _ _ => 0x5#4
  | .load _ _ => 0x6#4
  | .addImm _ _ => 0x7#4
  | .move _ _ => 0x8#4
  | .orReg _ _ => 0x8#4
  | .andReg _ _ => 0x8#4
  | .xorReg _ _ => 0x8#4
  | .addReg _ _ => 0x8#4
  | .subReg _ _ => 0x8#4
  | .shiftRight _ _ => 0x8#4
  | .subRegRev _ _ => 0x8#4
  | .shiftLeft _ _ => 0x8#4
  | .skipNeqReg _ _ => 0x9#4
  | .loadI _ => 0xA#4
  | .jumpOffset _ => 0xB#4
  | .random _ _ => 0xC#4
  | .draw _ _ _ => 0xD#4
  | .skipKeyDown _ => 0xE#4
  | .skipKeyUp _ => 0xE#4
  | .getDelay _ => 0xF#4
  | .waitKey _ => 0xF#4
  | .setDelay _ => 0xF#4
  | .setSound _ => 0xF#4
  | .addToI _ => 0xF#4
  | .fontAddr _ => 0xF#4
  | .toBCD _ => 0xF#4
  | .storeRegs _ => 0xF#4
  | .loadRegs _ => 0xF#4

/-- The top nibble of the encoding is the family's. -/
def Statement (i : Instr) : Prop := fieldT (encode i) = nibble i

theorem clear : Statement .clear := rfl
theorem ret : Statement .ret := rfl
theorem jump (nnn : BitVec 12) : Statement (.jump nnn) := by
  simp [Statement, encode, nibble, fieldT_or]; decide
theorem call (nnn : BitVec 12) : Statement (.call nnn) := by
  simp [Statement, encode, nibble, fieldT_or]; decide
theorem skipEq (x : Reg) (kk : Byte) : Statement (.skipEq x kk) := by
  simp [Statement, encode, nibble, fieldT_or]; decide
theorem skipNeq (x : Reg) (kk : Byte) : Statement (.skipNeq x kk) := by
  simp [Statement, encode, nibble, fieldT_or]; decide
theorem skipEqReg (x : Reg) (y : Reg) : Statement (.skipEqReg x y) := by
  simp [Statement, encode, nibble, fieldT_or]; decide
theorem load (x : Reg) (kk : Byte) : Statement (.load x kk) := by
  simp [Statement, encode, nibble, fieldT_or]; decide
theorem addImm (x : Reg) (kk : Byte) : Statement (.addImm x kk) := by
  simp [Statement, encode, nibble, fieldT_or]; decide
theorem move (x : Reg) (y : Reg) : Statement (.move x y) := by
  simp [Statement, encode, nibble, fieldT_or]; decide
theorem orReg (x : Reg) (y : Reg) : Statement (.orReg x y) := by
  simp [Statement, encode, nibble, fieldT_or]; decide
theorem andReg (x : Reg) (y : Reg) : Statement (.andReg x y) := by
  simp [Statement, encode, nibble, fieldT_or]; decide
theorem xorReg (x : Reg) (y : Reg) : Statement (.xorReg x y) := by
  simp [Statement, encode, nibble, fieldT_or]; decide
theorem addReg (x : Reg) (y : Reg) : Statement (.addReg x y) := by
  simp [Statement, encode, nibble, fieldT_or]; decide
theorem subReg (x : Reg) (y : Reg) : Statement (.subReg x y) := by
  simp [Statement, encode, nibble, fieldT_or]; decide
theorem shiftRight (x : Reg) (y : Reg) : Statement (.shiftRight x y) := by
  simp [Statement, encode, nibble, fieldT_or]; decide
theorem subRegRev (x : Reg) (y : Reg) : Statement (.subRegRev x y) := by
  simp [Statement, encode, nibble, fieldT_or]; decide
theorem shiftLeft (x : Reg) (y : Reg) : Statement (.shiftLeft x y) := by
  simp [Statement, encode, nibble, fieldT_or]; decide
theorem skipNeqReg (x : Reg) (y : Reg) : Statement (.skipNeqReg x y) := by
  simp [Statement, encode, nibble, fieldT_or]; decide
theorem loadI (nnn : BitVec 12) : Statement (.loadI nnn) := by
  simp [Statement, encode, nibble, fieldT_or]; decide
theorem jumpOffset (nnn : BitVec 12) : Statement (.jumpOffset nnn) := by
  simp [Statement, encode, nibble, fieldT_or]; decide
theorem random (x : Reg) (kk : Byte) : Statement (.random x kk) := by
  simp [Statement, encode, nibble, fieldT_or]; decide
theorem draw (x : Reg) (y : Reg) (n : BitVec 4) : Statement (.draw x y n) := by
  simp [Statement, encode, nibble, fieldT_or]; decide
theorem skipKeyDown (x : Reg) : Statement (.skipKeyDown x) := by
  simp [Statement, encode, nibble, fieldT_or]; decide
theorem skipKeyUp (x : Reg) : Statement (.skipKeyUp x) := by
  simp [Statement, encode, nibble, fieldT_or]; decide
theorem getDelay (x : Reg) : Statement (.getDelay x) := by
  simp [Statement, encode, nibble, fieldT_or]; decide
theorem waitKey (x : Reg) : Statement (.waitKey x) := by
  simp [Statement, encode, nibble, fieldT_or]; decide
theorem setDelay (x : Reg) : Statement (.setDelay x) := by
  simp [Statement, encode, nibble, fieldT_or]; decide
theorem setSound (x : Reg) : Statement (.setSound x) := by
  simp [Statement, encode, nibble, fieldT_or]; decide
theorem addToI (x : Reg) : Statement (.addToI x) := by
  simp [Statement, encode, nibble, fieldT_or]; decide
theorem fontAddr (x : Reg) : Statement (.fontAddr x) := by
  simp [Statement, encode, nibble, fieldT_or]; decide
theorem toBCD (x : Reg) : Statement (.toBCD x) := by
  simp [Statement, encode, nibble, fieldT_or]; decide
theorem storeRegs (x : Reg) : Statement (.storeRegs x) := by
  simp [Statement, encode, nibble, fieldT_or]; decide
theorem loadRegs (x : Reg) : Statement (.loadRegs x) := by
  simp [Statement, encode, nibble, fieldT_or]; decide

end Sys2Proof.Laws.Family
end

