-- ==== Sys2Proof/Laws/Step.lean ====
section
/-! SUPPORT. What one step can do, said once: the cases of the total order of R150 and of the
instruction step of R131. -/

namespace Sys2Proof.Machine

/-- `step` is the next element of the total order (R150). -/
theorem step_eq (s : State) : step s = orderedStep s := rfl

@[simp] theorem endStepOf_next (s : State) : endStepOf (.next s) = .next s.endStep := rfl

/-- What a step that answers a next state did: the host's move, then either nothing (the step was not
enabled), a stop at fetch, a stop at decode, or the decoded operation (R131, R150). -/
theorem instructionStep_next {s t : State} (h : instructionStep s = .next t) :
    (s.phase.enabled = false ∧ t = s) ∨
    (s.phase.enabled = true ∧ s.fetchWord = none ∧ t = s.raiseStop .fetchBounds s.pc) ∨
    (∃ w, s.phase.enabled = true ∧ s.fetchWord = some w ∧ decode w = none ∧
      t = (s.latchWord w).raiseStop .decodeNone w) ∨
    (∃ w i u, s.phase.enabled = true ∧ s.fetchWord = some w ∧ decode w = some i ∧
      exec i (s.latchWord w).enterExecute = .next u ∧ t = u.endStep) := by
  unfold instructionStep at h
  split at h
  · next he =>
    split at h
    · next hf => exact .inr (.inl ⟨he, hf, by cases h; rfl⟩)
    · next w hf =>
      split at h
      · next hd => exact .inr (.inr (.inl ⟨w, he, hf, hd, by cases h; rfl⟩))
      · next i hd =>
        cases hx : exec i (s.latchWord w).enterExecute with
        | next u =>
          rw [hx] at h
          exact .inr (.inr (.inr ⟨w, i, u, he, hf, hd, hx, by cases h; rfl⟩))
        | fault r => cases r
        | refused r => rw [hx] at h; cases h
  · next he => exact .inl ⟨by simpa using he, by cases h; rfl⟩

/-- What a step did: the next move of the host's plan, an instruction step or a transaction, on the state
less that move (R150, R160). -/
theorem step_next {s t : State} (h : step s = .next t) :
    (∃ rest, s.host.next = (.permitStep, rest) ∧ instructionStep { s with host := rest } = .next t) ∨
    (∃ tr rest, s.host.next = (.issue tr, rest) ∧ t = (transact tr { s with host := rest }).1) := by
  rw [step_eq, orderedStep] at h
  cases hn : s.host.next with
  | mk m rest =>
    rw [hn] at h
    cases m with
    | permitStep => exact .inl ⟨rest, rfl, h⟩
    | issue tr => exact .inr ⟨tr, rest, rfl, by cases h; rfl⟩

/-- A step whose move is a permission is an instruction step. -/
theorem step_permit {s : State} {rest : HostPlan} (h : s.host.next = (.permitStep, rest)) :
    step s = instructionStep { s with host := rest } := by
  rw [step_eq, orderedStep, h, hostStep]

/-- A step whose move is a transaction is that transaction. -/
theorem step_issue {s : State} {tr : Transaction} {rest : HostPlan} (h : s.host.next = (.issue tr, rest)) :
    step s = .next (transact tr { s with host := rest }).1 := by
  rw [step_eq, orderedStep, h, hostStep]

end Sys2Proof.Machine

namespace Sys2Proof.HostPlan

/-! ### The host's plan -/

@[simp] theorem next_listed (m : HostMove) (rest : List HostMove) (t : HostTail) :
    next ⟨m :: rest, t⟩ = (m, ⟨rest, t⟩) := rfl

@[simp] theorem next_repeats (first : HostMove) (others : List HostMove) :
    next ⟨[], .repeats first others⟩ = (first, ⟨others, .repeats first others⟩) := rfl

@[simp] theorem next_free (k : Nat) :
    next ⟨[], .free k⟩ = (Config.hostMove k, ⟨[], .free (k + 1)⟩) := rfl

@[simp] theorem next_run : next .run = (.permitStep, .run) := rfl

@[simp] theorem moves_zero (p : HostPlan) : moves 0 p = [] := rfl

@[simp] theorem moves_succ (n : Nat) (p : HostPlan) : moves (n + 1) p = p.next.1 :: moves n p.next.2 := rfl

@[simp] theorem skip_zero (p : HostPlan) : skip 0 p = p := rfl

@[simp] theorem skip_succ (n : Nat) (p : HostPlan) : skip (n + 1) p = skip n p.next.2 := rfl

@[simp] theorem moves_length (n : Nat) (p : HostPlan) : (moves n p).length = n := by
  induction n generalizing p with
  | zero => rfl
  | succ n ih => simp [ih]

end Sys2Proof.HostPlan
end

