-- ==== Sys2Proof/Tests/Slice0.lean ====
section
/-! SUPPORT. Tests on fixed values, the vectors of spec/95_test_vectors.md (the vector is named beside
each), and for every statement with hypotheses a witness that meets them. -/

namespace Sys2Proof.Tests

open Sys2Proof.Machine

/-! ### Well-formedness refuses what does not fit -/

/-- Ill-formed: a nibble of 16, a byte of 256, an address of 4096, a font base of 0x0FB1 (TH9), a
program of 3585 bytes (TH13), and the two transactions that carry them. -/
theorem test_wellformed_refuses :
    fitsNibble 16 = false ∧ fitsByte 256 = false ∧ fitsAddress12 4096 = false ∧
    fontBaseFits 0x0FB1 = false ∧ (Transaction.installFont 0x0FB1).wellFormed = false := by decide

theorem test_wellformed_refuses_long_program :
    (Transaction.loadProgram (List.replicate 3585 0)).wellFormed = false ∧
    (Transaction.loadProgram (List.replicate 3584 0)).wellFormed = true := by
  have h (n : Nat) : (Transaction.loadProgram (List.replicate n 0)).wellFormed = decide (n ≤ 3584) := by
    simp only [Transaction.wellFormed, programFits, List.length_replicate]
  exact ⟨h 3585, h 3584⟩

theorem test_wellformed_accepts :
    fitsNibble 15 = true ∧ fitsByte 255 = true ∧ fitsAddress12 4095 = true ∧
    fontBaseFits 0x0FB0 = true ∧ (Instr.draw 15 15 15).wellFormed = true := by decide

/-! ### The encodings of R54, written out bit by bit (TE1 to TE34) -/

theorem test_decode_0_fixed :
    decode 0b0000000011100000#16 = some .clear ∧ decode 0b0000000011101110#16 = some .ret := by decide

theorem test_decode_1_2_address :
    decode 0b0001000000000000#16 = some (.jump 0x000) ∧
    decode 0b0010111111111111#16 = some (.call 0xFFF) := by decide

theorem test_decode_3_to_7 :
    decode 0b0011101011111111#16 = some (.skipEq 0xA 0xFF) ∧
    decode 0b0100000000000000#16 = some (.skipNeq 0 0x00) ∧
    decode 0b0101000100100000#16 = some (.skipEqReg 1 2) ∧
    decode 0b0110000100000101#16 = some (.load 1 0x05) ∧
    decode 0b0111111111111111#16 = some (.addImm 0xF 0xFF) := by decide

theorem test_decode_8_alu :
    decode 0b1000000100100000#16 = some (.move 1 2) ∧
    decode 0b1000111111110001#16 = some (.orReg 0xF 0xF) ∧
    decode 0b1000000000000010#16 = some (.andReg 0 0) ∧
    decode 0b1000000100100011#16 = some (.xorReg 1 2) ∧
    decode 0b1000000100100100#16 = some (.addReg 1 2) := by decide

theorem test_decode_8_sub_and_shift :
    decode 0b1000000100100101#16 = some (.subReg 1 2) ∧
    decode 0b1000000111110110#16 = some (.shiftRight 1 0xF) ∧
    decode 0b1000000000100111#16 = some (.subRegRev 0 2) ∧
    decode 0b1000101010111110#16 = some (.shiftLeft 0xA 0xB) := by decide

theorem test_decode_9_to_D :
    decode 0b1001111100000000#16 = some (.skipNeqReg 0xF 0) ∧
    decode 0b1010111111111111#16 = some (.loadI 0xFFF) ∧
    decode 0b1011000100100011#16 = some (.jumpOffset 0x123) ∧
    decode 0b1100011100001111#16 = some (.random 7 0x0F) ∧
    decode 0b1101001000110010#16 = some (.draw 2 3 2) := by decide

theorem test_decode_E_keys :
    decode 0b1110000010011110#16 = some (.skipKeyDown 0) ∧
    decode 0b1110111110100001#16 = some (.skipKeyUp 0xF) := by decide

theorem test_decode_F_keys_and_timers :
    decode 0b1111010100000111#16 = some (.getDelay 5) ∧
    decode 0b1111000000001010#16 = some (.waitKey 0) ∧
    decode 0b1111010100010101#16 = some (.setDelay 5) ∧
    decode 0b1111011000011000#16 = some (.setSound 6) := by decide

theorem test_decode_F_index_and_memory :
    decode 0b1111001000011110#16 = some (.addToI 2) ∧
    decode 0b1111111100101001#16 = some (.fontAddr 0xF) ∧
    decode 0b1111000000110011#16 = some (.toBCD 0) ∧
    decode 0b1111000101010101#16 = some (.storeRegs 1) ∧
    decode 0b1111111101100101#16 = some (.loadRegs 0xF) := by decide

/-- TE40 to TE65: no row. -/
theorem test_decode_rejects :
    [0x0000#16, 0x0001#16, 0x00E1#16, 0x00EF#16, 0x00FE#16, 0x0123#16, 0x0FFF#16, 0x5001#16, 0x512F#16].all
      (fun w => (decode w).isNone) = true ∧
    [0x8008#16, 0x8129#16, 0x812A#16, 0x812D#16, 0x812F#16, 0x9121#16, 0x9FFF#16, 0xE000#16].all
      (fun w => (decode w).isNone) = true ∧
    [0xE19F#16, 0xE1A0#16, 0xE09F#16, 0xF000#16, 0xF006#16, 0xF01F#16, 0xF1FF#16, 0xF075#16, 0xF085#16].all
      (fun w => (decode w).isNone) = true := by decide

/-- The encoder gives the words of TE1, TE4, TE8, TE18, TE23, TE34. -/
theorem test_encode :
    encode .clear = 0x00E0#16 ∧ encode (.call 0xFFF) = 0x2FFF#16 ∧ encode (.load 1 5) = 0x6105#16 ∧
    encode (.shiftLeft 0xA 0xB) = 0x8ABE#16 ∧ encode (.draw 0xF 0xF 0xF) = 0xDFFF#16 ∧
    encode (.loadRegs 0xF) = 0xFF65#16 := by decide

theorem test_decode_bytes :
    decodeTableWord 16 0x6105 = some (.load 1 5) ∧ decodeTableWord 16 0x0000 = none ∧
    decodeBytes [0x61] = .error .truncated := ⟨by decide, by decide, rfl⟩

/-! ### Helpers -/

/-- The state a meaning or a step answers. -/
def nextOf (o : Out) : State :=
  match o with
  | .next t => t
  | .fault r => nomatch r
  | .refused _ => State.reset

/-- The reset state with some registers set. -/
def regs (l : List (Reg × Byte)) : State := l.foldl (fun s p => s.writeV p.1 p.2) State.reset

/-- A state with bytes placed in memory. -/
def placed (s : State) (a : Nat) (bs : List Byte) : State := { s with mem := Memory.writeBytes s.mem a bs }

/-- One step on the word `w` placed at `pc`. -/
def after (s : State) (w : Nat) : State := nextOf (step (s.withFetchWord 16 w))

/-- One step, nothing placed. -/
def stepped (s : State) : State := nextOf (step s)

/-! ### Control transfer and skips -/

/-- TC1. -/
theorem test_jump : (after { State.reset with pc := 0x0202 } 0x1209).pc = 0x0209#16 := by decide

/-- TC5. -/
theorem test_call_last_frame :
    let t := after { State.reset with sp := 15, pc := 0x0400 } 0x2300
    t.stack[15]? = some 0x0402#16 ∧ t.sp = 16 ∧ t.pc = 0x0300#16 := by decide

/-- TC6. -/
theorem test_call_overflow :
    let t := after { State.reset with sp := 16, pc := 0x0400 } 0x2300
    t.phase = .stopped ∧ t.stopCause = .stackOverflow ∧ t.stopInfo = 0x2300#16 ∧ t.pc = 0x0400#16 := by
  decide

/-- U4: with another STACK_DEPTH the overflow is elsewhere. -/
theorem test_call_overflow_depth :
    (after { State.resetWith { Config.defaultParams with stackDepth := 2 } with sp := 2 } 0x2300).stopCause
      = .stackOverflow ∧
    (after { State.resetWith { Config.defaultParams with stackDepth := 20 } with sp := 16 } 0x2300).sp = 17 := by
  decide

/-- TC9. -/
theorem test_return :
    let t := after { State.reset with sp := 2, stack := State.reset.stack.set 1 0x0300, pc := 0x0400 } 0x00EE
    t.sp = 1 ∧ t.pc = 0x0300#16 := by decide

/-- TC10. -/
theorem test_return_empty :
    let t := after State.reset 0x00EE
    t.pc = 0x0200#16 ∧ t.sp = 0 ∧ t.phase = .fetch := by decide

/-- TC12, TC13. -/
theorem test_skipEq :
    (after { State.reset with pc := 0x0208 } 0x3000).pc = 0x020C#16 ∧
    (after { regs [(0, 1)] with pc := 0x0208 } 0x3000).pc = 0x020A#16 := by decide

/-- TC16, TC17. -/
theorem test_skipNeq :
    (after { regs [(3, 0x10)] with pc := 0x0300 } 0x4311).pc = 0x0304#16 ∧
    (after { regs [(3, 0x10)] with pc := 0x0300 } 0x4310).pc = 0x0302#16 := by decide

/-- TC18, TC19. -/
theorem test_skipEqReg :
    (after (regs [(1, 9), (2, 9)]) 0x5120).pc = 0x0204#16 ∧
    (after (regs [(1, 9), (2, 8)]) 0x5120).pc = 0x0202#16 := by decide

/-- TC21, TC22. -/
theorem test_skipNeqReg :
    (after (regs [(1, 5), (2, 9)]) 0x9120).pc = 0x0204#16 ∧
    (after (regs [(7, 0xAB)]) 0x9770).pc = 0x0202#16 := by decide

/-- TC24, TC25. -/
theorem test_jumpOffset :
    (after (regs [(0, 4), (3, 0x55)]) 0xB300).pc = 0x0304#16 ∧
    (after (regs [(0, 0xFF)]) 0xBFFF).pc = 0x10FE#16 := by decide

/-! ### Load, arithmetic, logic, shift, random -/

/-- TA2. -/
theorem test_load : (after State.reset 0x6FAB).V[15] = 0xAB#8 := by decide

/-- TA4. -/
theorem test_addImm_no_flag :
    let t := after (regs [(0, 0xFF), (15, 1)]) 0x7001
    t.V[0] = 0x00#8 ∧ t.V[15] = 0x01#8 ∧ t.pc = 0x0202#16 := by decide

/-- TA6. -/
theorem test_move : (after (regs [(2, 0x2A)]) 0x8120).V[1] = 0x2A#8 := by decide

/-- TA7. -/
theorem test_logic :
    let s := regs [(1, 0xF0), (2, 0x3C), (15, 1)]
    (after s 0x8121).V[1] = 0xFC#8 ∧ (after s 0x8122).V[1] = 0x30#8 ∧ (after s 0x8123).V[1] = 0xCC#8 ∧
    (after s 0x8121).V[15] = 0x01#8 := by decide

/-- TA10, TA11. -/
theorem test_addReg_carry :
    let t := after (regs [(1, 0xFE), (2, 1), (15, 1)]) 0x8124
    let u := after (regs [(1, 0xFF), (2, 1)]) 0x8124
    t.V[1] = 0xFF#8 ∧ t.V[15] = 0#8 ∧ u.V[1] = 0x00#8 ∧ u.V[15] = 1#8 := by decide

/-- TA15, TA16. -/
theorem test_addReg_vf :
    let t := after (regs [(15, 0x10), (1, 0x20)]) 0x8F14
    let u := after (regs [(1, 5), (15, 1)]) 0x81F4
    t.V[15] = 0#8 ∧ u.V[1] = 6#8 ∧ u.V[15] = 0#8 := by decide

/-- TA17, TA18. -/
theorem test_subReg_borrow :
    let t := after (regs [(1, 5), (2, 5)]) 0x8125
    let u := after (regs [(1, 0), (2, 1)]) 0x8125
    t.V[1] = 0#8 ∧ t.V[15] = 1#8 ∧ u.V[1] = 0xFF#8 ∧ u.V[15] = 0#8 := by decide

/-- TA20, TA21. -/
theorem test_subReg_vf :
    let t := after (regs [(15, 5), (1, 3)]) 0x8F15
    let u := after (regs [(1, 3), (15, 5)]) 0x81F5
    t.V[15] = 1#8 ∧ u.V[1] = 0xFE#8 ∧ u.V[15] = 0#8 := by decide

/-- TA22, TA26. -/
theorem test_shiftRight :
    let t := after (regs [(1, 5), (2, 0xFF)]) 0x8126
    t.V[1] = 2#8 ∧ t.V[15] = 1#8 ∧ t.V[2] = 0xFF#8 ∧ (after (regs [(15, 2)]) 0x8F06).V[15] = 0#8 := by decide

/-- TA27, TA28. -/
theorem test_subRegRev :
    let t := after (regs [(1, 3), (2, 5)]) 0x8127
    let u := after (regs [(1, 5), (2, 3)]) 0x8127
    t.V[1] = 2#8 ∧ t.V[15] = 1#8 ∧ u.V[1] = 0xFE#8 ∧ u.V[15] = 0#8 := by decide

/-- TA31, TA32. -/
theorem test_shiftLeft :
    let t := after (regs [(1, 0x40)]) 0x810E
    let u := after (regs [(1, 0xFF)]) 0x812E
    t.V[1] = 0x80#8 ∧ t.V[15] = 0#8 ∧ u.V[1] = 0xFE#8 ∧ u.V[15] = 1#8 := by decide

/-- TA35, TA37: with 0xA7 for the random byte. -/
theorem test_random :
    (State.reset.writeMasked 3 0xA7 0x0F).V[3] = 0x07#8 ∧
    (State.reset.writeMasked 3 0xA7 0xFF).V[3] = 0xA7#8 := by decide

/-- A step that runs Random completes (TA38). -/
theorem test_random_step :
    let t := after State.reset 0xC3F0
    t.pc = 0x0202#16 ∧ t.phase = .fetch ∧ t.randCount = 1 := by decide

/-! ### Address register and memory -/

/-- TM2. -/
theorem test_loadI : (after { State.reset with I := 0x1234 } 0xAFFF).I = 0x0FFF#16 := by decide

/-- TM4, TM5. -/
theorem test_addToI :
    let t := after { regs [(0, 1)] with I := 0x0FFF } 0xF01E
    t.I = 0x1000#16 ∧ t.V[15] = 0#8 ∧ (after { regs [(0, 1)] with I := 0xFFFF } 0xF01E).I = 0#16 := by decide

/-- TM7, TM8. -/
theorem test_fontAddr :
    (after { regs [(0, 0x0F)] with fontBase := 0x0050 } 0xF029).I = 0x009B#16 ∧
    (after { regs [(0, 0xFF)] with fontBase := 0x0FB0 } 0xF029).I = 0x14AB#16 := by decide

/-- TM12. -/
theorem test_toBCD :
    let t := after { regs [(0, 0x64)] with I := 0x0FFD } 0xF033
    Memory.read t.mem 0xFFD = 1#8 ∧ Memory.read t.mem 0xFFE = 0#8 ∧ Memory.read t.mem 0xFFF = 0#8 := by decide

/-- TM13. -/
theorem test_toBCD_bounds :
    let t := after { regs [(0, 0x91)] with I := 0x0FFE } 0xF033
    t.stopCause = .dataBounds ∧ t.stopInfo = 0x1000#16 ∧ Memory.read t.mem 0xFFE = 0#8 := by decide

/-- TM15. -/
theorem test_storeRegs :
    let t := after { regs [(0, 5), (1, 0xFF), (2, 0x77)] with I := 0x0300 } 0xF155
    Memory.read t.mem 0x300 = 5#8 ∧ Memory.read t.mem 0x301 = 0xFF#8 ∧ Memory.read t.mem 0x302 = 0#8 ∧
    t.I = 0x0300#16 := by decide

/-- TM17 (with two registers set). -/
theorem test_storeRegs_bounds :
    let t := after { regs [(0, 0x10), (15, 0x1F)] with I := 0x0FF1 } 0xFF55
    t.stopCause = .dataBounds ∧ t.stopInfo = 0x1000#16 ∧ Memory.read t.mem 0xFF1 = 0#8 := by decide

/-- TM19. -/
theorem test_loadRegs :
    let t := after (placed { regs [(3, 0x99)] with I := 0x0300 } 0x300 [1, 4, 5]) 0xF265
    t.V[0] = 1#8 ∧ t.V[1] = 4#8 ∧ t.V[2] = 5#8 ∧ t.V[3] = 0x99#8 := by decide

/-- TM21. -/
theorem test_loadRegs_bounds :
    let t := after { regs [(0, 0x11), (1, 0x22)] with I := 0x0FFF } 0xF165
    t.stopCause = .dataBounds ∧ t.stopInfo = 0x1000#16 ∧ t.V[0] = 0x11#8 := by decide

/-! ### Display -/

/-- TD1 (one of its two pixels). -/
theorem test_clear :
    let t := after { regs [(15, 1)] with fb := setPixel clearedFb 63 31 true } 0x00E0
    getPixel t.fb 63 31 = false ∧ t.V[15] = 1#8 := by decide

/-- TD4. -/
theorem test_draw_wraps :
    let t := after (placed { regs [(0, 0xFF), (1, 0xFF)] with I := 0x0300 } 0x300 [0xC0]) 0xD011
    getPixel t.fb 63 31 = true ∧ getPixel t.fb 0 31 = true ∧ getPixel t.fb 1 31 = false ∧ t.V[15] = 0#8 := by
  decide

/-- TD5. -/
theorem test_draw_collides :
    let t := after (placed { State.reset with I := 0x0300, fb := setPixel clearedFb 0 0 true } 0x300 [0xC0, 0x80]) 0xD012
    getPixel t.fb 0 0 = false ∧ getPixel t.fb 1 0 = true ∧ getPixel t.fb 0 1 = true ∧ t.V[15] = 1#8 := by decide

/-! ### Keypad and timers -/

/-- TK3, TK4. -/
theorem test_skipKeyDown :
    (after { regs [(4, 0x0F)] with K := State.reset.K.set 15 true } 0xE49E).pc = 0x0204#16 ∧
    (after { regs [(4, 0x10)] with K := State.reset.K.set 0 true } 0xE49E).stopInfo = 0x0010#16 := by decide

/-- TK5, TK6. -/
theorem test_skipKeyUp :
    (after (regs [(4, 0x0A)]) 0xE4A1).pc = 0x0204#16 ∧
    (after { regs [(4, 0x0A)] with K := State.reset.K.set 10 true } 0xE4A1).pc = 0x0202#16 := by decide

/-- TK8. -/
theorem test_getDelay :
    let t := after { State.reset with dt := 0x3C } 0xF507
    t.V[5] = 0x3C#8 ∧ t.dt = 0x3C#8 := by decide

/-- TK9, TK10. -/
theorem test_waitKey :
    (after { regs [(0, 0xFF)] with K := (State.reset.K.set 3 true).set 7 true } 0xF00A).V[0] = 3#8 ∧
    (after (regs [(0, 0xFF)]) 0xF00A).V[0] = 0xFF#8 ∧ (after (regs [(0, 0xFF)]) 0xF00A).pc = 0x0202#16 := by decide

/-- TK13, TK14. -/
theorem test_set_timers :
    let t := after { regs [(5, 0x3C)] with st := 9 } 0xF515
    let u := after { regs [(6, 8)] with dt := 9 } 0xF618
    t.dt = 0x3C#8 ∧ t.st = 9#8 ∧ u.st = 8#8 ∧ u.dt = 9#8 := by decide

/-! ### The instruction step and the host -/

/-- TF1. -/
theorem test_halt_on_zero_memory :
    let t := stepped State.reset
    t.halted = true ∧ t.stopInfo = 0#16 ∧ t.pc = 0x0200#16 ∧ t.irValid = true := by decide

/-- TF3. -/
theorem test_odd_fetch : (stepped (placed { State.reset with pc := 0x0209 } 0x209 [0x12, 0x34])).pc = 0x0234#16 := by
  decide

/-- TF4, TF7. -/
theorem test_fetch_bounds :
    let t := stepped { State.reset with pc := 0x0FFF }
    t.faulted = true ∧ t.stopCause = .fetchBounds ∧ t.stopInfo = 0x0FFF#16 ∧ t.irValid = false := by decide

/-- TF8. -/
theorem test_stopped_stays : stepped (stepped State.reset) = stepped State.reset := by decide

/-- TF9: Tick in STOPPED. -/
theorem test_tick_in_stopped :
    let t := stepped { stepped State.reset with dt := 2, host := ⟨[.issue .tick], .free 0⟩ }
    t.dt = 1#8 ∧ t.phase = .stopped := by decide

/-- TH2, TH3. -/
theorem test_tick :
    (transact .tick { State.reset with dt := 0xFF, st := 2 }).2 = .timers 0xFE 1 ∧
    (transact .tick State.reset).2 = .timers 0 0 := by decide

/-- TH6. -/
theorem test_keyUp :
    let t := (transact (.keyUp 3) { State.reset with K := (State.reset.K.set 3 true).set 7 true }).1
    t.isDown 3 = false ∧ t.isDown 7 = true := by decide

/-- TH8, TH9. -/
theorem test_installFont :
    let t := (transact (.installFont 0x0FB0) State.reset).1
    Memory.read t.mem 0xFB0 = 0xF0#8 ∧ Memory.read t.mem 0xFFF = 0x80#8 ∧ t.fontBase = 0x0FB0#16 ∧
    (transact (.installFont 0x0FB1) State.reset).2 = .refused := by decide

/-- TH11, TH14. -/
theorem test_loadProgram :
    let t := (transact (.loadProgram [0x61, 0x05, 0x62]) State.reset).1
    Memory.read t.mem 0x200 = 0x61#8 ∧ Memory.read t.mem 0x202 = 0x62#8 ∧ Memory.read t.mem 0x203 = 0#8 ∧
    (transact (.loadProgram [0x61]) { State.reset with phase := .stopped }).2 = .refused := by decide

/-- TD12. -/
theorem test_get :
    (transact (.get 65 33) { State.reset with fb := setPixel clearedFb 1 1 true }).2 = .pixel true ∧
    (transact (.get 0 0) { State.reset with fb := setPixel clearedFb 1 1 true }).2 = .pixel false := by decide

/-- The status outputs show the live stack entries only (R159). -/
theorem test_status :
    { State.reset with sp := 1, stack := (State.reset.stack.set 0 0x0202).set 1 0x0300 }.status.liveStack
      = [0x0202#16] := by decide

/-- TR1, from a stopped core. -/
theorem test_reset :
    let t := (transact .reset (stepped { regs [(1, 7)] with I := 9 })).1
    t = State.reset := by decide

/-- A word placed from reset is the next one to run, also in STOPPED and with `pc` past memory. -/
theorem test_withFetchWord :
    (State.reset.withFetchWord 16 0x6105).fetchWord = some 0x6105#16 ∧
    (after (stepped State.reset) 0x6105).V[1] = 5#8 ∧
    (after { State.reset with pc := 0x1000 } 0x6105).V[1] = 5#8 := by decide

/-! ### Witnesses: states and operands that meet the hypotheses of the statements -/

/-- A core in the middle of a run: one frame live, `pc` at the highest address that can be fetched,
a Load there. -/
def running : State :=
  placed { State.reset with
    pc := 0x0FFE, phase := .fetch, irValid := true, sp := 1, stack := State.reset.stack.set 0 0x1000 }
    0xFFE [0x61, 0x05]

/-- A core stopped by ToBCD at the end of memory, the host about to Tick. -/
def stoppedCore : State :=
  { after { regs [(0, 0x91)] with I := 0x0FFE } 0xF033 with host := ⟨[.issue .tick, .permitStep], .free 0⟩ }

theorem running_live : ∀ a ∈ running.stack.take running.sp, a.toNat ≤ 0x1000 := by
  have h : running.stack.take running.sp = [0x1000#16] := by decide
  rw [h]
  simp

theorem running_inv : Inv running :=
  ⟨by decide, by decide, by decide, by decide, by decide, by decide, by decide, running_live, by decide, by decide⟩

theorem stoppedCore_live : ∀ a ∈ stoppedCore.stack.take stoppedCore.sp, a.toNat ≤ 0x1000 := by
  have h : stoppedCore.stack.take stoppedCore.sp = [] := by decide
  rw [h]
  simp

theorem stoppedCore_inv : Inv stoppedCore :=
  ⟨by decide, by decide, by decide, by decide, by decide, by decide, by decide, stoppedCore_live, by decide,
    by decide⟩

theorem witness_ResetGivesEveryResetValue :
    (∃ t : State, t = State.reset) ∧ ∃ s t : State, s ≠ State.reset ∧ t = (transact .reset s).1 ∧ t.params = Config.defaultParams :=
  ⟨⟨_, rfl⟩, stoppedCore, _, by decide, rfl, rfl⟩

theorem witness_EveryStepKeepsTheInvariant : ∃ s t : State, Inv s ∧ step s = .next t ∧ t ≠ s :=
  ⟨running, stepped running, running_inv, rfl, by decide⟩

theorem witness_ReadyStaysFresh :
    ∃ s t : State, (s.phase = .ready → Fresh s) ∧ step s = .next t ∧ t.phase = .ready ∧ t.isDown 3 = true :=
  ⟨{ State.reset with host := ⟨[.issue (.keyDown 3)], .free 0⟩ }, _,
    fun _ => ⟨rfl, rfl, rfl, rfl, ⟨rfl, rfl⟩, rfl, ⟨rfl, rfl⟩⟩, rfl, rfl, by decide⟩

theorem witness_StopRecordStaysTrue :
    ∃ s t : State, Inv s ∧ StopRecord s ∧ s.stopCause = .dataBounds ∧ step s = .next t :=
  ⟨stoppedCore, stepped stoppedCore, stoppedCore_inv, ⟨by decide, by decide, 0, 0, 0, by decide⟩, by decide, rfl⟩

theorem witness_CodecRoundTrip : ∃ w i, decode w = some i ∧ i = .draw 2 3 2 := ⟨0xD232, _, by decide, rfl⟩

theorem witness_DecoderFollowsTheTable :
    (∃ w, ∃ r ∈ opcodeTable, w &&& r.mask = r.bits) ∧ ∃ w, ∀ r ∈ opcodeTable, w &&& r.mask ≠ r.bits :=
  ⟨⟨0xFF65, opcodeTable[33], by simp, by decide⟩, 0x8129, by decide⟩

theorem witness_NoTwoRowsMatchOneWord :
    ∃ w, ∃ j, ∃ h : j < opcodeTable.length, opcodeTable[j].matches w = true :=
  ⟨0xFF65, 33, by decide, by decide⟩

theorem witness_StepRunsTheDecodedOperation :
    ∃ (s : State) (rest : HostPlan) (w : Word) (i : Instr) (u : State),
      s.host.next = (.permitStep, rest) ∧ s.phase = .fetch ∧ s.pc.toNat = 0x0FFE ∧
      w = Memory.read s.mem s.pc.toNat ++ Memory.read s.mem (s.pc.toNat + 1) ∧ decode w = some i ∧
      exec i { s with host := rest, ir := w, irValid := true, phase := .execute } = .next u :=
  ⟨running, _, 0x6105, .load 1 5, _, rfl, rfl, by decide, by decide, by decide, rfl⟩

theorem witness_StepStopsAtFetchAndDecode :
    (∃ s : State, s.host.next = (.permitStep, .run) ∧ s.phase = .ready ∧ s.pc.toNat = 0x0FFF) ∧
    ∃ (s : State) (w : Word), s.host.next = (.permitStep, .run) ∧ s.phase = .ready ∧ s.pc.toNat = 0x0FFE ∧
      w = Memory.read s.mem s.pc.toNat ++ Memory.read s.mem (s.pc.toNat + 1) ∧ decode w = none :=
  ⟨⟨{ State.reset with pc := 0x0FFF }, rfl, rfl, by decide⟩,
    { State.reset with pc := 0x0FFE }, 0, rfl, rfl, by decide, by decide, by decide⟩

theorem witness_FetchIsBigEndian : running.pc.toNat = 0x0FFE ∧ running.fetchWord = some 0x6105 := by decide

theorem witness_OnlyResetLeavesStopped :
    ∃ t, stoppedCore.phase = .stopped ∧ HostMove.issue .reset ∉ stoppedCore.host.moves 2 ∧ core.run 2 stoppedCore = .next t :=
  ⟨nextOf (core.run 2 stoppedCore), by decide, by decide, rfl⟩

/-- A core at a Return, at the highest address that can be fetched, with no frame live. -/
def atEmptyReturn (p : Phase) (plan : HostPlan) : State :=
  placed { State.reset with pc := 0x0FFE, phase := p, host := plan } 0xFFE [0x00, 0xEE]

/-- A host that Ticks and tries to load between any two steps, for ever. -/
def tickingHost : HostPlan := ⟨[], .repeats (.issue .tick) [.permitStep, .issue (.loadProgram [0x61])]⟩

/-- One state for each clause: a permission next, only permissions, and no Reset. -/
theorem witness_EmptyReturnRepeatsForEver :
    (∀ s ∈ [atEmptyReturn .ready .run, atEmptyReturn .fetch tickingHost],
      s.sp = 0 ∧ s.pc.toNat = 0x0FFE ∧ Memory.read s.mem s.pc.toNat = 0x00#8 ∧
        Memory.read s.mem (s.pc.toNat + 1) = 0xEE#8) ∧
    (atEmptyReturn .ready .run).host.next = (.permitStep, .run) ∧
    (∀ move ∈ (atEmptyReturn .ready .run).host.moves 4, move = .permitStep) ∧
    HostMove.issue .reset ∉ (atEmptyReturn .fetch tickingHost).host.moves 4 := by decide

theorem witness_StopsArePrecise :
    ∃ (s t : State) (rest : HostPlan), s.host.next = (.permitStep, rest) ∧ rest ≠ .run ∧ s.phase ≠ .stopped ∧
      step s = .next t ∧ t.phase = .stopped :=
  ⟨{ State.reset with host := ⟨[.permitStep, .issue .tick], .free 0⟩ }, _, _, rfl, by decide, by decide, rfl,
    by decide⟩

theorem witness_ProgramCounterContract :
    ∀ i ∈ [Instr.clear, .skipEq 0 0, .jump 0x300, .call 0x300, .jumpOffset 0x300, .ret],
      running.sp ≤ running.stack.length ∧
        exec i running = .next (nextOf (exec i running)) ∧ running.phase ≠ .stopped ∧
        (nextOf (exec i running)).phase ≠ .stopped := by
  intro i hi
  simp only [List.mem_cons, List.not_mem_nil, or_false] at hi
  rcases hi with rfl | rfl | rfl | rfl | rfl | rfl <;> exact ⟨by decide, rfl, by decide, by decide⟩

theorem witness_CallPushesTheReturnAddress :
    State.reset.stack.length = State.reset.params.stackDepth ∧
    { State.reset with sp := 15 }.sp < State.reset.params.stackDepth ∧
    { State.reset with sp := 16 }.sp = State.reset.params.stackDepth := by decide

theorem witness_ReturnPopsOrDoesNothing :
    State.reset.sp = 0 ∧ running.sp = 0 + 1 ∧ running.stack[0]? = some 0x1000#16 := by decide

theorem witness_CallThenReturn :
    ∃ t u v : State, running.stack.length = running.params.stackDepth ∧
      running.sp < running.params.stackDepth ∧ exec (.call 0x300) running = .next t ∧ u.sp = t.sp ∧
      u.stack = t.stack ∧ u.pc ≠ t.pc ∧ exec .ret u = .next v :=
  ⟨nextOf (exec (.call 0x300) running), (nextOf (exec (.call 0x300) running)).advance, _,
    by decide, by decide, rfl, rfl, rfl, by decide, rfl⟩

theorem witness_CompareSkips :
    ((regs [(1, 9), (2, 9)]).readV 1).toNat = ((regs [(1, 9), (2, 9)]).readV 2).toNat ∧
    ((regs [(1, 9), (2, 8)]).readV 1).toNat ≠ ((regs [(1, 9), (2, 8)]).readV 2).toNat ∧
    ((regs [(1, 9)]).readV 1).toNat = (9#8).toNat ∧ ((regs [(1, 9)]).readV 1).toNat ≠ (8#8).toNat := by decide

theorem witness_RandomIsAMaskedByte : ∃ x r : Reg, r ≠ x := ⟨3, 0, by decide⟩

theorem witness_AddressRegisterWrites :
    { State.reset with fontBase := 0x0FB0 }.fontBase.toNat = 0x0FB0 := by decide

/-- Both sides of the bound: the last base that fits and the first that does not. -/
theorem witness_ToBCDStoresTheDigits :
    Memory.wf running.mem = true ∧ { running with I := 0x0FFD }.I.toNat + 2 = 0x0FFF ∧
    { running with I := 0x0FFE }.I.toNat + 2 > 0x0FFF := by decide

theorem witness_StoreRegsStoresTheRegisters :
    Memory.wf running.mem = true ∧ { running with I := 0x0FF0 }.I.toNat + (15 : Reg).val = 0x0FFF ∧
    { running with I := 0x0FF1 }.I.toNat + (15 : Reg).val > 0x0FFF := by decide

theorem witness_LoadRegsLoadsTheRegisters :
    { running with I := 0x0FFF }.I.toNat + (0 : Reg).val = 0x0FFF ∧
    { running with I := 0x1000 }.I.toNat + (0 : Reg).val > 0x0FFF := by decide

theorem witness_StoreIsSeenByTheNextFetch :
    ∃ s t : State, Memory.wf s.mem = true ∧ s.pc.toNat = 0x0FFC ∧ s.I = s.pc + 2 ∧ 1 ≤ (1 : Reg).val ∧
      s.phase ≠ .stopped ∧ exec (.storeRegs 1) s = .next t ∧ t.phase ≠ .stopped :=
  ⟨{ running with pc := 0x0FFC, I := 0x0FFE }, _, by decide, by decide, by decide, by decide, by decide, rfl,
    by decide⟩

theorem witness_CanonicalMemoryIsUnique :
    ∃ m n : Memory, Memory.wf m = true ∧ Memory.wf n = true ∧ m ≠ [] ∧
      ∀ a, a < 4096 → Memory.read m a = Memory.read n a :=
  ⟨Memory.write [] 0x300 7, Memory.write (Memory.write [] 0x300 5) 0x300 7, by decide, by decide, by decide,
    fun _ _ => rfl⟩

theorem witness_DrawXorsEachSpriteBit :
    (List.replicate 15 (0xFF : Byte)).length ≤ 15 ∧
    (∀ j i, j < 15 → i < 8 → ¬ (8 % 64 = (0 + i) % 64 ∧ 15 % 32 = (0 + j) % 32)) ∧
    (draw (setPixel clearedFb 0 0 true) 0 0 [0x80]).2 = true := ⟨by decide, by omega, by decide⟩

theorem witness_DrawDrawsTheSpriteAtI :
    State.reset.params.drawWritesVF = true ∧
    ((0 : BitVec 4) = 0 ∨ { State.reset with I := 0x1234 }.I.toNat + (0 : BitVec 4).toNat - 1 ≤ 0x0FFF) ∧
    { State.reset with I := 0x0FF1 }.I.toNat + (15 : BitVec 4).toNat - 1 = 0x0FFF ∧
    { State.reset with I := 0x0FF2 }.I.toNat + (15 : BitVec 4).toNat - 1 > 0x0FFF := by decide

theorem witness_DrawWithoutTheFlag :
    (State.resetWith { Config.defaultParams with drawWritesVF := false }).params.drawWritesVF = false ∧
    (State.resetWith { Config.defaultParams with drawWritesVF := false }).I.toNat + (1 : BitVec 4).toNat - 1 ≤ 0x0FFF :=
  ⟨rfl, by decide⟩

theorem witness_GetReadsWrappedCoordinates : 33 % 32 = (1 : Fin 32).val ∧ 127 % 64 = (63 : Fin 64).val := by decide

theorem witness_KeySkips :
    ((regs [(4, 0x0F)]).readV 4).toNat = (15 : KeyIndex).val ∧ ((regs [(4, 0x10)]).readV 4).toNat > 0x0F := by decide

theorem witness_WaitKeyTakesTheLowestKey :
    { State.reset with K := State.reset.K.set 15 true }.K[(15 : KeyIndex)] = true ∧
    (∀ j : KeyIndex, j < 15 → { State.reset with K := State.reset.K.set 15 true }.K[j] = false) ∧
    ∀ k : KeyIndex, State.reset.K[k] = false := by decide

theorem witness_RegisterFrame :
    ∃ t, exec (.addReg 1 2) running = .next t ∧ mayWriteV (.addReg 1 2) 2 = false := ⟨_, rfl, by decide⟩

theorem witness_FlagIsZeroOrOne :
    ∃ t, writesFlag (.addReg 15 2) = true ∧ running.params.drawWritesVF = true ∧ running.phase ≠ .stopped ∧
      exec (.addReg 15 2) running = .next t ∧ t.phase ≠ .stopped := ⟨_, rfl, rfl, by decide, rfl, by decide⟩

theorem witness_MemoryFrame :
    ∃ (s t : State), exec (.toBCD 0) s = .next t ∧ s.I.toNat = 0x300 ∧
      (0x2FF < s.I.toNat) ∧ s.I.toNat + (storedBytes (.toBCD 0) s).length = 0x303 :=
  ⟨{ running with I := 0x0300 }, _, rfl, by decide, by decide, by decide⟩

theorem witness_ElementFrames :
    ∃ t u : State, exec (.setDelay 1) (regs [(1, 7)]) = .next t ∧ t.dt ≠ (regs [(1, 7)]).dt ∧
      exec .ret running = .next u ∧ u.sp ≠ running.sp := ⟨_, _, rfl, by decide, rfl, by decide⟩

theorem witness_LastFetchHasNoEffect : ∃ t, exec (.call 0x300) running = .next t := ⟨_, rfl⟩

theorem witness_DeadStackEntriesHaveNoEffect :
    ∃ s' t : State, SameButDeadStack running s' ∧ s' ≠ running ∧ step running = .next t :=
  ⟨{ running with stack := running.stack.set 1 0x0ABC }, stepped running,
    ⟨rfl, by decide, by decide⟩, by decide, rfl⟩

theorem witness_InstallFontWritesTheFont :
    Memory.wf State.reset.mem = true ∧ State.reset.phase = .ready ∧ (0x0FB0#16).toNat = 0x0FB0 ∧
    running.phase ≠ .ready ∧ (0x0FB1#16).toNat > 0x0FB0 := by decide

theorem witness_LoadProgramWritesTheProgram :
    Memory.wf State.reset.mem = true ∧ State.reset.phase = .ready ∧
    (List.replicate 3584 (0x01 : Byte)).length = 3584 ∧ (List.replicate 3585 (0x01 : Byte)).length > 3584 ∧
    running.phase ≠ .ready :=
  ⟨rfl, rfl, List.length_replicate, lt_of_lt_of_eq (by decide) List.length_replicate.symm, by decide⟩

theorem witness_StatusShowsTheState : running.sp ≤ running.stack.length ∧ 0 < running.sp := by decide

theorem witness_AcceptanceByPhase :
    (transact (.installFont 0x0FB1) State.reset).2 = .refused ∧ running.phase ≠ .ready := by decide

theorem witness_HostWritesNoCoreState :
    Transaction.keyDown 3 ≠ .reset ∧ Transaction.keyDown 3 ≠ .tick ∧ running.phase ≠ .ready := by decide

theorem witness_HostMoveIsOneStep :
    stoppedCore.host.next = (.issue .tick, ⟨[.permitStep], .free 0⟩) ∧
    (stepped stoppedCore).host.next = (.permitStep, ⟨[], .free 0⟩) ∧ (stepped stoppedCore).phase = .stopped := by
  decide

/-- A plan with a Tick in each pass (R197): its moves come round, and a step takes one. -/
theorem test_plan_repeats :
    tickingHost.moves 4 = [.issue .tick, .permitStep, .issue (.loadProgram [0x61]), .issue .tick] ∧
    (stepped { State.reset with dt := 2, host := tickingHost }).dt = 1#8 := by decide

end Sys2Proof.Tests
end

section
/-! PROOFS. The fetched word as a number (R33). -/

namespace Sys2Proof

/-- Big-endian as a number (R33): the first byte counts 256 times, the second once. -/
theorem wordOfBytes_toNat (hi lo : Byte) :
    (wordOfBytes hi lo).toNat = 256 * hi.toNat + lo.toNat :=
  calc (hi ++ lo).toNat
    _ = hi.toNat <<< 8 ||| lo.toNat := BitVec.toNat_append hi lo
    _ = hi.toNat <<< 8 + lo.toNat := (Nat.shiftLeft_add_eq_or_of_lt lo.isLt _).symm
    _ = 256 * hi.toNat + lo.toNat := by rw [Nat.shiftLeft_eq, Nat.mul_comm]

namespace Machine

/-- Settles O14: in bounds, the fetch answers the word of the two bytes at `pc`, read big-endian. -/
theorem fetchIsBigEndian : Obligations.FetchIsBigEndian := fun _ hpc =>
  ⟨_, fetchWord_some.mpr ⟨hpc, rfl⟩, wordOfBytes_toNat _ _⟩

end Machine

end Sys2Proof
end

section
/-! PROOFS. The decoder and the opcode table (R54, R63): a word as its fields (R51), what each format's
mask compares (R52), and which operations each list of rows gives. -/

namespace Sys2Proof

/-! ### A word is its fields side by side (R51) -/

theorem fieldT_append_fieldNNN (w : Word) : fieldT w ++ fieldNNN w = w :=
  (BitVec.extractLsb'_append_extractLsb'_eq_extractLsb' rfl).trans BitVec.extractLsb'_eq_self

theorem extractX_append_fieldKK (w : Word) : w.extractLsb' 8 4 ++ fieldKK w = fieldNNN w :=
  BitVec.extractLsb'_append_extractLsb'_eq_extractLsb' rfl

theorem extractY_append_fieldN (w : Word) : w.extractLsb' 4 4 ++ fieldN w = fieldKK w :=
  BitVec.extractLsb'_append_extractLsb'_eq_extractLsb' rfl

theorem append_eq_iff_extractLsb' {n m : Nat} (hi : BitVec n) (lo : BitVec m) (v : BitVec (n + m)) :
    hi ++ lo = v ↔ hi = v.extractLsb' m n ∧ lo = v.extractLsb' 0 m := by
  constructor
  · rintro rfl
    exact ⟨BitVec.extractLsb'_append_eq_left.symm, BitVec.extractLsb'_append_eq_right.symm⟩
  · rintro ⟨rfl, rfl⟩
    rw [BitVec.extractLsb'_append_extractLsb'_eq_extractLsb' (Nat.zero_add m).symm]
    exact BitVec.extractLsb'_eq_self

/-! ### What a mask keeps, and what a row with that mask compares (R52) -/

theorem and_F000 (w : Word) : w &&& 0xF000 = fieldT w ++ 0#12 := calc
  w &&& 0xF000
  _ = (fieldT w ++ fieldNNN w) &&& (BitVec.allOnes 4 ++ 0#12) := by rw [fieldT_append_fieldNNN]; rfl
  _ = fieldT w ++ 0#12 := by rw [BitVec.and_append, BitVec.and_allOnes, BitVec.and_zero]

theorem and_F00F (w : Word) : w &&& 0xF00F = fieldT w ++ (0#4 ++ (0#4 ++ fieldN w)) := calc
  w &&& 0xF00F
  _ = (fieldT w ++ (w.extractLsb' 8 4 ++ (w.extractLsb' 4 4 ++ fieldN w))) &&&
        (BitVec.allOnes 4 ++ (0#4 ++ (0#4 ++ BitVec.allOnes 4))) := by
      rw [extractY_append_fieldN, extractX_append_fieldKK, fieldT_append_fieldNNN]; rfl
  _ = fieldT w ++ (0#4 ++ (0#4 ++ fieldN w)) := by
      simp only [BitVec.and_append, BitVec.and_allOnes, BitVec.and_zero]

theorem and_F0FF (w : Word) : w &&& 0xF0FF = fieldT w ++ (0#4 ++ fieldKK w) := calc
  w &&& 0xF0FF
  _ = (fieldT w ++ (w.extractLsb' 8 4 ++ fieldKK w)) &&&
        (BitVec.allOnes 4 ++ (0#4 ++ BitVec.allOnes 8)) := by
      rw [extractX_append_fieldKK, fieldT_append_fieldNNN]; rfl
  _ = fieldT w ++ (0#4 ++ fieldKK w) := by
      simp only [BitVec.and_append, BitVec.and_allOnes, BitVec.and_zero]

/-- Formats NNN, XKK and XYN: the family. -/
theorem and_F000_eq_iff (w v : Word) : w &&& 0xF000 = v ↔
    fieldT w = v.extractLsb' 12 4 ∧ 0 = v.extractLsb' 0 12 := by
  rw [and_F000]
  exact append_eq_iff_extractLsb' (m := 12) _ _ v

/-- Format XY: the family and the low nibble. -/
theorem and_F00F_eq_iff (w v : Word) : w &&& 0xF00F = v ↔
    fieldT w = v.extractLsb' 12 4 ∧ 0 = v.extractLsb' 8 4 ∧ 0 = v.extractLsb' 4 4 ∧
      fieldN w = v.extractLsb' 0 4 := by
  rw [and_F00F, append_eq_iff_extractLsb', append_eq_iff_extractLsb', append_eq_iff_extractLsb']
  simp

/-- Format X: the family and the low byte. -/
theorem and_F0FF_eq_iff (w v : Word) : w &&& 0xF0FF = v ↔
    fieldT w = v.extractLsb' 12 4 ∧ 0 = v.extractLsb' 8 4 ∧ fieldKK w = v.extractLsb' 0 8 := by
  rw [and_F0FF, append_eq_iff_extractLsb', append_eq_iff_extractLsb']
  simp

/-- Format FIX: the whole word; its family is named beside it, as for the other masks. -/
theorem and_FFFF_eq_iff (w v : Word) : w &&& 0xFFFF = v ↔ fieldT w = v.extractLsb' 12 4 ∧ w = v := by
  rw [show w &&& 0xFFFF = w from BitVec.and_allOnes]
  exact (and_iff_right_of_imp (congrArg fieldT)).symm

/-! ### The families the decoder splits further (R63) -/

theorem decode_of_family0 {w : Word} (hT : fieldT w = 0x0#4) : decode w = decodeFamily0 w := by
  simp [decode, hT]

theorem decode_of_family8 {w : Word} (hT : fieldT w = 0x8#4) : decode w = decodeFamily8 w := by
  simp [decode, hT]

theorem decode_of_familyE {w : Word} (hT : fieldT w = 0xE#4) : decode w = decodeFamilyE w := by
  simp [decode, hT]

theorem decode_of_familyF {w : Word} (hT : fieldT w = 0xF#4) : decode w = decodeFamilyF w := by
  simp [decode, hT]

/-! ### The operations a list of rows gives (R54) -/

/-- `w` matches one of the rows, and `i` is that row's operation with the fields of `w`. -/
def SpelledBy (rows : List OpRow) (w : Word) (i : Instr) : Prop :=
  ∃ r ∈ rows, w &&& r.mask = r.bits ∧ r.operation w = i

theorem not_spelledBy_nil (w : Word) (i : Instr) : ¬ SpelledBy [] w i := by simp [SpelledBy]

theorem spelledBy_cons (r : OpRow) (rows : List OpRow) (w : Word) (i : Instr) :
    SpelledBy (r :: rows) w i ↔ w &&& r.mask = r.bits ∧ r.operation w = i ∨ SpelledBy rows w i := by
  simp [SpelledBy]

theorem spelledBy_append (rows rows' : List OpRow) (w : Word) (i : Instr) :
    SpelledBy (rows ++ rows') w i ↔ SpelledBy rows w i ∨ SpelledBy rows' w i := by
  simp [SpelledBy, or_and_right, exists_or]

/-! Each list of the table covers whole families, and within them it gives what the decoder gives. -/

theorem spelledBy_rowsFix (w : Word) (i : Instr) :
    SpelledBy rowsFix w i ↔ fieldT w = 0x0#4 ∧ decode w = some i := by
  simp only [rowsFix, spelledBy_cons, not_spelledBy_nil, and_FFFF_eq_iff]
  by_cases hT : fieldT w = 0x0#4
  · rw [decode_of_family0 hT, decodeFamily0]
    split_ifs <;> simp_all
  · simp [hT]

theorem spelledBy_rowsImmediate (w : Word) (i : Instr) :
    SpelledBy rowsImmediate w i ↔
      fieldT w ∈ [0x1#4, 0x2#4, 0x3#4, 0x4#4, 0x5#4, 0x6#4, 0x7#4] ∧ decode w = some i := by
  simp only [rowsImmediate, spelledBy_cons, not_spelledBy_nil, and_F000_eq_iff, and_F00F_eq_iff,
    List.mem_cons, List.not_mem_nil, or_false]
  rw [decode]
  split <;> simp_all

theorem spelledBy_rowsAlu (w : Word) (i : Instr) :
    SpelledBy rowsAlu w i ↔ fieldT w = 0x8#4 ∧ decode w = some i := by
  simp only [rowsAlu, spelledBy_cons, not_spelledBy_nil, and_F00F_eq_iff]
  by_cases hT : fieldT w = 0x8#4
  · rw [decode_of_family8 hT, decodeFamily8]
    split <;> simp_all
  · simp [hT]

theorem spelledBy_rowsIndexAndDraw (w : Word) (i : Instr) :
    SpelledBy rowsIndexAndDraw w i ↔
      fieldT w ∈ [0x9#4, 0xA#4, 0xB#4, 0xC#4, 0xD#4] ∧ decode w = some i := by
  simp only [rowsIndexAndDraw, spelledBy_cons, not_spelledBy_nil, and_F000_eq_iff, and_F00F_eq_iff,
    List.mem_cons, List.not_mem_nil, or_false]
  rw [decode]
  split <;> simp_all

theorem spelledBy_rowsKeyAndMisc (w : Word) (i : Instr) :
    SpelledBy rowsKeyAndMisc w i ↔ fieldT w ∈ [0xE#4, 0xF#4] ∧ decode w = some i := by
  simp only [rowsKeyAndMisc, spelledBy_cons, not_spelledBy_nil, and_F0FF_eq_iff]
  by_cases hE : fieldT w = 0xE#4
  · rw [decode_of_familyE hE, decodeFamilyE]
    split <;> simp_all
  by_cases hF : fieldT w = 0xF#4
  · rw [decode_of_familyF hF, decodeFamilyF]
    split <;> simp_all
  · simp [hE, hF]

/-- The lists of rows share out the sixteen families. -/
theorem every_family_listed (t : BitVec 4) :
    t = 0x0#4 ∨ t ∈ [0x1#4, 0x2#4, 0x3#4, 0x4#4, 0x5#4, 0x6#4, 0x7#4] ∨ t = 0x8#4 ∨
      t ∈ [0x9#4, 0xA#4, 0xB#4, 0xC#4, 0xD#4] ∨ t ∈ [0xE#4, 0xF#4] := by
  revert t
  decide

/-- The case split of R63 is the table of R54. -/
theorem spelledBy_opcodeTable (w : Word) (i : Instr) :
    SpelledBy opcodeTable w i ↔ decode w = some i := by
  simp only [opcodeTable, spelledBy_append, spelledBy_rowsFix, spelledBy_rowsImmediate,
    spelledBy_rowsAlu, spelledBy_rowsIndexAndDraw, spelledBy_rowsKeyAndMisc, ← or_and_right, or_assoc,
    every_family_listed, true_and]

namespace Machine

/-- Settles O8: the decoder answers an operation exactly when a row spells it, so a matching row's
operation is the answer, and without one there is none. -/
theorem decoderFollowsTheTable : Obligations.DecoderFollowsTheTable := fun w => by
  constructor
  · intro r hr hmatch
    exact (spelledBy_opcodeTable w (r.operation w)).mp ⟨r, hr, hmatch, rfl⟩
  · intro hnone
    rw [Option.eq_none_iff_forall_ne_some]
    intro i hi
    obtain ⟨r, hr, hmatch, -⟩ := (spelledBy_opcodeTable w i).mpr hi
    exact hnone r hr hmatch

end Machine

end Sys2Proof
end

section
/-! PROOFS. Control flow (spec/40_control_flow.md): jumps, Call with its stop and its datum, Return, and
the compare-and-skip operations. -/

namespace Sys2Proof

/-- The instruction word of a Call as a number (R54): the family in the top nibble, the immediate below. -/
theorem encode_call_toNat (nnn : BitVec 12) : (encode (.call nnn)).toNat = 0x2000 + nnn.toNat :=
  calc (0x2000#16 ||| placeNNN nnn).toNat
    _ = 0x2000 ||| nnn.toNat := by
      rw [BitVec.toNat_or, placeNNN, BitVec.toNat_setWidth_of_le (by decide)]; rfl
    _ = 0x2000 + nnn.toNat := (Nat.two_pow_add_eq_or_of_lt nnn.isLt 2).symm

namespace Machine

/-! ### Jumps (R71, R77) -/

/-- The sum of a byte and a 12-bit immediate does not leave the 16 bits of an Address (R77). -/
theorem zextByte_add_zextAddress_toNat (v : Byte) (nnn : BitVec 12) :
    (zextByte v + zextAddress nnn).toNat = v.toNat + nnn.toNat := by
  have hv := v.isLt
  have hn := nnn.isLt
  rw [BitVec.toNat_add, zextByte_toNat, zextAddress_toNat, Nat.mod_eq_of_lt (by omega)]

/-- Settles O19: both jumps are `State.jumpTo`, so only `pc` changes; the sum of JumpOffset fits. -/
theorem jumpsSetThePc : Obligations.JumpsSetThePc := fun nnn s =>
  ⟨⟨s.jumpTo (zextAddress nnn), rfl, zextAddress_toNat nnn, rfl⟩,
    ⟨s.jumpTo (zextByte (s.readV V0) + zextAddress nnn), rfl, zextByte_add_zextAddress_toNat _ nnn, rfl⟩⟩

/-! ### Call (R72, R138, R175) -/

/-- With a free frame a Call pushes `pc + 2` and jumps. -/
theorem exec_call_free {s : State} (nnn : BitVec 12) (h : s.sp < s.params.stackDepth) :
    exec (.call nnn) s =
      .next { s with stack := s.stack.set s.sp (s.pc + 2), sp := s.sp + 1, pc := zextAddress nnn } := by
  rw [exec, execCall, pushReturn_free h]
  rfl

/-- With all frames live a Call stops, and the datum is its instruction word. -/
theorem exec_call_full {s : State} (nnn : BitVec 12) (h : ¬ s.sp < s.params.stackDepth) :
    exec (.call nnn) s = .next (s.raiseStop .stackOverflow (encode (.call nnn))) := by
  rw [exec, execCall, pushReturn_full h]

/-- Settles O20: a free frame is an entry of the stack, so the push is read back there and every other
entry is kept. -/
theorem callPushesTheReturnAddress : Obligations.CallPushesTheReturnAddress := fun nnn s hlen => by
  constructor
  · intro hfree
    exact ⟨_, exec_call_free nnn hfree, rfl, List.getElem?_set_self (hlen ▸ hfree),
      fun k hk => List.getElem?_set_ne hk.symm, zextAddress_toNat nnn, rfl⟩
  · intro hfull
    exact ⟨_, exec_call_full nnn hfull.not_lt, encode_call_toNat nnn, rfl⟩

/-! ### Return (R70, R139) -/

theorem exec_ret (s : State) : exec .ret s = .next s.popReturn := rfl

/-- Settles O21: the two cases of the return primitive. -/
theorem returnPopsOrDoesNothing : Obligations.ReturnPopsOrDoesNothing := fun s => by
  constructor
  · intro hempty
    rw [exec_ret, popReturn_empty hempty]
  · intro k a hsp ha
    exact ⟨{ s with sp := k, pc := a }, by rw [exec_ret, popReturn_live hsp ha], rfl, rfl, rfl⟩

/-! ### Compare and skip (R73 to R76)

An operation and its negation compare the same two bytes, and whether the second is an immediate or a
register plays no part: the four operations are one law about `State.condAdvance` on two bytes. -/

theorem next_condAdvance_of_toNat_eq (s : State) {a b : Byte} (h : a.toNat = b.toNat) :
    (.next (s.condAdvance (a == b)) : Out) = .next { s with pc := s.pc + 4 } ∧
    (.next (s.condAdvance (a != b)) : Out) = .next { s with pc := s.pc + 2 } := by
  obtain rfl := BitVec.eq_of_toNat_eq h
  rw [beq_self_eq_true, bne_self_eq_false]
  exact ⟨rfl, rfl⟩

theorem next_condAdvance_of_toNat_ne (s : State) {a b : Byte} (h : a.toNat ≠ b.toNat) :
    (.next (s.condAdvance (a == b)) : Out) = .next { s with pc := s.pc + 2 } ∧
    (.next (s.condAdvance (a != b)) : Out) = .next { s with pc := s.pc + 4 } := by
  have hab : a ≠ b := BitVec.toNat_ne_iff_ne.mp h
  rw [beq_false_of_ne hab, bne_iff_ne.mpr hab]
  exact ⟨rfl, rfl⟩

/-- Settles O23: the first two clauses compare `V[x]` with the immediate, the last two `V[x]` with `V[y]`. -/
theorem compareSkips : Obligations.CompareSkips := fun _ _ _ s =>
  ⟨next_condAdvance_of_toNat_eq s, next_condAdvance_of_toNat_ne s,
    next_condAdvance_of_toNat_eq s, next_condAdvance_of_toNat_ne s⟩

end Machine

end Sys2Proof
end

section
/-! PROOFS. Loads, logic, additions, subtraction and shifts (spec/41_alu.md): every operation is one
register write, or a result and then a flag (R93), followed by the advance of `pc`; what is left is the
value of the byte written, as a number. -/

namespace Sys2Proof.Machine

/-! ### The two shapes of an arithmetic operation -/

/-- An operation that writes one register and advances completes with the number that byte stands for. -/
theorem completesWith_of_writeV {i : Instr} {s : State} {x : Reg} {b : Byte} {v : Nat}
    (hexec : exec i s = .next (s.writeV x b).advance) (hv : b.toNat = v) : CompletesWith i s x v := by
  refine ⟨(s.writeV x b).advance, hexec, fun r => ?_, rfl⟩
  rw [State.advance_eq, readV_jumpTo, readV_writeV, apply_ite BitVec.toNat, hv]

/-- An operation that writes a result, then the flag, and advances completes with the numbers these two
bytes stand for; the flag wins where the destination is VF (R93). -/
theorem completesWithFlag_of_writeResultAndFlag {i : Instr} {s : State} {x : Reg} {b f : Byte} {v flag : Nat}
    (hexec : exec i s = .next (s.writeResultAndFlag x b f).advance) (hv : b.toNat = v)
    (hflag : f.toNat = flag) : CompletesWithFlag i s x v flag := by
  refine ⟨(s.writeResultAndFlag x b f).advance, hexec, fun r => ?_, rfl⟩
  rw [State.advance_eq, readV_jumpTo, State.writeResultAndFlag_eq, readV_writeV, readV_writeV,
    apply_ite BitVec.toNat, apply_ite BitVec.toNat, hv, hflag]

/-! ### The byte results as numbers -/

/-- A byte difference is the difference where no borrow occurs, and 256 more where one does (R92). -/
theorem byte_sub_toNat (a b : Byte) :
    (a - b).toNat = if a.toNat ≥ b.toNat then a.toNat - b.toNat else a.toNat + 256 - b.toNat := by
  have ha := a.isLt
  rw [BitVec.toNat_sub]
  split
  case isTrue hge => omega
  case isFalse hlt => omega

/-- A right shift by one halves (R88). -/
theorem byte_shiftRight_one_toNat (a : Byte) : (a >>> 1).toNat = a.toNat / 2 := by
  rw [BitVec.toNat_ushiftRight, Nat.shiftRight_one]

/-- A left shift by one doubles modulo 256 (R90). -/
theorem byte_shiftLeft_one_toNat (a : Byte) : (a <<< 1).toNat = a.toNat * 2 % 256 := by
  rw [BitVec.toNat_shiftLeft, Nat.shiftLeft_eq]

/-! ### The operations -/

/-- Settles O24: each of the five writes one register, with the immediate, `V[y]` or a bitwise result. -/
theorem loadMoveAndLogic : Obligations.LoadMoveAndLogic := fun _ _ _ _ =>
  ⟨completesWith_of_writeV rfl rfl, completesWith_of_writeV rfl rfl,
    completesWith_of_writeV rfl (BitVec.toNat_or _ _), completesWith_of_writeV rfl (BitVec.toNat_and _ _),
    completesWith_of_writeV rfl (BitVec.toNat_xor _ _)⟩

/-- Settles O25: both sums wrap at 256; only AddReg writes the carry. -/
theorem additions : Obligations.Additions := fun _ _ _ _ =>
  ⟨completesWith_of_writeV rfl (BitVec.toNat_add _ _),
    completesWithFlag_of_writeResultAndFlag rfl (BitVec.toNat_add _ _) (carryFlag_toNat _ _)⟩

/-- Settles O26: the flag is 1 exactly in the case where the difference does not wrap. -/
theorem subtraction : Obligations.Subtraction := fun _ _ _ =>
  completesWithFlag_of_writeResultAndFlag rfl (byte_sub_toNat _ _) (noBorrowFlag_toNat _ _)

/-- Settles O28: the result is the half or the double, the flag the bit lost by it; no clause reads `V[y]`. -/
theorem shifts : Obligations.Shifts := fun _ _ _ =>
  ⟨completesWithFlag_of_writeResultAndFlag rfl (byte_shiftRight_one_toNat _) (shiftedOutRight_toNat _),
    completesWithFlag_of_writeResultAndFlag rfl (byte_shiftLeft_one_toNat _) (shiftedOutLeft_toNat _)⟩

end Sys2Proof.Machine
end

section
/-! PROOFS. The address register, ToBCD, StoreRegs and LoadRegs (spec/42_index_memory.md): the bound of a
data access through `I` and its stop once for the three transfers, then what each of them transfers. -/

namespace Sys2Proof.Machine

/-! ### The data access through `I` (R36, R43, R174) -/

/-- A non-empty access fits exactly when its last byte is at most 0xFFF (R31, R36). -/
theorem accessFits_succ_iff (a m : Nat) : accessFits a (m + 1) = true ↔ a + m ≤ 0x0FFF := by
  rw [accessFits_iff, Config.memSize]
  omega

/-- Within the bound an operation that accesses `I` to `I + m` has its effect. -/
theorem exec_of_access_fits {i : Instr} {s e : State} {m : Nat}
    (hexec : exec i s = s.withAccess (m + 1) e) (h : s.I.toNat + m ≤ 0x0FFF) : exec i s = .next e :=
  hexec.trans (withAccess_fits e ((accessFits_succ_iff _ m).mpr h))

/-- Beyond the bound it stops at the lowest address out of range, with no effect (R174, R180). -/
theorem stopsWith_of_access_exceeds {i : Instr} {s e : State} {m : Nat}
    (hexec : exec i s = s.withAccess (m + 1) e) (h : s.I.toNat + m > 0x0FFF) :
    StopsWith i s .dataBounds (max s.I.toNat 0x1000) := by
  have hfits : accessFits s.I.toNat (m + 1) = false :=
    Bool.eq_false_iff.mpr fun hf => h.not_ge ((accessFits_succ_iff _ m).mp hf)
  exact ⟨_, hexec.trans (withAccess_stops e hfits), firstOutOfRange_toNat s.I, rfl⟩

/-! ### What a store through `I` leaves in memory (R32) -/

/-- Byte `k` of a store of `m + 1` bytes within the bound is read back at `I + k`. -/
theorem read_storeAtI_inside {s : State} {bs : List Byte} {m k : Nat} (hwf : Memory.wf s.mem = true)
    (hlen : bs.length = m + 1) (h : s.I.toNat + m ≤ 0x0FFF) (hk : k < bs.length) :
    Memory.read (s.storeAtI bs).mem (s.I.toNat + k) = bs[k] := by
  have hfits : s.I.toNat + bs.length ≤ Config.memSize := by rw [Config.memSize]; omega
  exact Memory.read_writeBytes_inside hwf hfits hk

/-- A store of `m + 1` bytes leaves every address outside `I` to `I + m` alone. -/
theorem read_storeAtI_outside (s : State) {bs : List Byte} {m a : Nat} (hlen : bs.length = m + 1)
    (ha : a < s.I.toNat ∨ a > s.I.toNat + m) :
    Memory.read (s.storeAtI bs).mem a = Memory.read s.mem a :=
  Memory.read_writeBytes_outside s.mem bs (by omega)

/-! ### ToBCD (R99) -/

/-- A number at most a byte's, written as a byte, stands for itself: no decimal digit is cut off. -/
theorem ofNat_toNat_of_le {v : Byte} {d : Nat} (h : d ≤ v.toNat) : (BitVec.ofNat 8 d).toNat = d :=
  Nat.mod_eq_of_lt (h.trans_lt v.isLt)

/-- Settles O31: within the bound the three digits are read back at `I`, `I+1` and `I+2`. -/
theorem toBCDStoresTheDigits : Obligations.ToBCDStoresTheDigits := fun x s hwf => by
  constructor
  · intro h
    have stored (k : Nat) (hk : k < 3) :
        Memory.read (s.storeAtI (bcdDigits (s.readV x))).mem (s.I.toNat + k) = (bcdDigits (s.readV x))[k] :=
      read_storeAtI_inside hwf rfl h hk
    exact ⟨_, exec_of_access_fits rfl h,
      (congrArg BitVec.toNat (stored 0 (by decide))).trans (ofNat_toNat_of_le (Nat.div_le_self _ _)),
      (congrArg BitVec.toNat (stored 1 (by decide))).trans
        (ofNat_toNat_of_le ((Nat.mod_le _ _).trans (Nat.div_le_self _ _))),
      (congrArg BitVec.toNat (stored 2 (by decide))).trans (ofNat_toNat_of_le (Nat.mod_le _ _)),
      fun _ ha => read_storeAtI_outside s rfl ha, rfl⟩
  · exact stopsWith_of_access_exceeds rfl

/-! ### StoreRegs (R100) -/

/-- Settles O32: the bytes stored are the registers up to `x`, in order, and byte `k` is read back at
`I + k`. -/
theorem storeRegsStoresTheRegisters : Obligations.StoreRegsStoresTheRegisters := fun x s hwf => by
  have hlen := regBytes_length s x
  constructor
  · intro h
    refine ⟨_, exec_of_access_fits rfl h, fun k hk => ?_, fun _ ha => read_storeAtI_outside s hlen ha, rfl⟩
    have hk' : k.val < (s.regBytes x).length := hlen ▸ Nat.lt_succ_of_le hk
    exact (read_storeAtI_inside hwf hlen h hk').trans (regBytes_getElem s x k.val hk')
  · exact stopsWith_of_access_exceeds rfl

/-! ### LoadRegs (R101) -/

/-- Register `k` after a load of the registers up to `x` from the bytes at `I`: byte `k` when it is one of
them, else its old value. -/
theorem loadRegsFrom_readAtI_getElem (s : State) (x k : Reg) :
    (loadRegsFrom 0 (s.readAtI (x.val + 1)) s.V)[k] =
      if k ≤ x then Memory.read s.mem (s.I.toNat + k.val) else s.readV k := by
  rw [Fin.getElem_fin, loadRegsFrom_getElem]
  have hread : 0 ≤ k.val ∧ k.val - 0 < (s.readAtI (x.val + 1)).length ↔ k ≤ x := by
    rw [State.readAtI, Memory.readBytes_length, Fin.le_def]
    omega
  by_cases hk : k ≤ x
  · rw [dif_pos (hread.mpr hk), if_pos hk]
    exact Memory.readBytes_getElem _ _ _ _ (hread.mpr hk).2
  · rw [dif_neg (mt hread.mp hk), if_neg hk, readV_def, Fin.getElem_fin]

/-- Settles O33: the transfer writes registers only, each as `loadRegsFrom_readAtI_getElem` says. -/
theorem loadRegsLoadsTheRegisters : Obligations.LoadRegsLoadsTheRegisters := fun x s =>
  ⟨fun h => ⟨_, exec_of_access_fits rfl h, loadRegsFrom_readAtI_getElem s x, rfl⟩,
    stopsWith_of_access_exceeds rfl⟩

/-! ### LoadI, AddToI, FontAddr (R96 to R98) -/

/-- The sum of an Address and a byte wraps at the 16 bits of `I` (R97). -/
theorem add_zextByte_toNat (a : Addr) (v : Byte) : (a + zextByte v).toNat = (a.toNat + v.toNat) % 65536 := by
  rw [BitVec.toNat_add, zextByte_toNat]

/-- A glyph's address as a number wraps at the 16 bits of `I` (R98). -/
theorem glyphAddress_toNat (base : Addr) (digit : Byte) :
    (glyphAddress base digit).toNat = (base.toNat + 5 * digit.toNat) % 65536 := by
  rw [glyphAddress, BitVec.toNat_add, BitVec.toNat_mul, zextByte_toNat, Nat.add_mod_mod]
  rfl

/-- From a base InstallFont accepts no digit makes it wrap, the whole byte counted (D29, R98). -/
theorem glyphAddress_toNat_of_le {base : Addr} (digit : Byte) (h : base.toNat ≤ 0x0FB0) :
    (glyphAddress base digit).toNat = base.toNat + 5 * digit.toNat := by
  have hd := digit.isLt
  rw [glyphAddress_toNat, Nat.mod_eq_of_lt (by omega)]

/-- Settles O30: each of the three is one write to `I` and the advance of `pc`. -/
theorem addressRegisterWrites : Obligations.AddressRegisterWrites := fun nnn x s =>
  ⟨⟨(s.writeI (zextAddress nnn)).advance, rfl, zextAddress_toNat nnn, rfl⟩,
    ⟨(s.writeI (s.I + zextByte (s.readV x))).advance, rfl, add_zextByte_toNat s.I _, rfl⟩,
    ⟨(s.writeI (glyphAddress s.fontBase (s.readV x))).advance, rfl, glyphAddress_toNat_of_le _,
      glyphAddress_toNat _ _, rfl⟩⟩

end Sys2Proof.Machine
end

section
/-! PROOFS. The display (spec/43_display.md): Clear, the host's Get, and Draw with its bound and its flag. -/

namespace Sys2Proof.Machine

/-! ### Clear (R109) -/

theorem exec_clear (s : State) : exec .clear s = .next (State.advance { s with fb := clearedFb }) := rfl

/-- Settles O36: the framebuffer becomes the cleared one, every pixel of which is unset. -/
theorem clearUnsetsEveryPixel : Obligations.ClearUnsetsEveryPixel := fun s =>
  ⟨_, exec_clear s, getPixel_clearedFb, rfl⟩

/-! ### Get (R111, R157) -/

/-- The pixel a pair of coordinates names is the one in the row and column they wrap to (R106). -/
theorem getPixel_of_mod_eq (fb : Framebuffer) {X Y : Nat} {r : Fin 32} {c : Fin 64}
    (hr : Y % 32 = r.val) (hc : X % 64 = c.val) : getPixel fb X Y = fb[r][c] := by
  obtain ⟨r, hr'⟩ := r
  obtain ⟨c, hc'⟩ := c
  subst hr hc
  rfl

theorem transact_get (X Y : Nat) (s : State) : transact (.get X Y) s = (s, .pixel (getPixel s.fb X Y)) := rfl

/-- Settles O41: the reply is the pixel named, beside the state as it was. -/
theorem getReadsWrappedCoordinates : Obligations.GetReadsWrappedCoordinates := fun X Y s =>
  ⟨_, transact_get X Y s, fun _ _ => getPixel_of_mod_eq s.fb⟩

/-! ### Draw (R110) -/

theorem exec_draw (x y : Reg) (n : BitVec 4) (s : State) :
    exec (.draw x y n) s = s.withAccess n.toNat (s.drawSprite x y n.toNat).advance := rfl

/-- A sprite's bytes fit when there is none (no bounds check) or the last is at most 0xFFF. -/
theorem accessFits_toNat_iff (a : Nat) (n : BitVec 4) :
    accessFits a n.toNat = true ↔ n = 0 ∨ a + n.toNat - 1 ≤ 0x0FFF := by
  have hzero : n.toNat = 0 ↔ n = 0 := BitVec.toNat_inj (y := 0)
  rw [accessFits_iff, Config.memSize, ← hzero]
  omega

theorem exec_draw_fits (x y : Reg) {n : BitVec 4} {s : State} (h : n = 0 ∨ s.I.toNat + n.toNat - 1 ≤ 0x0FFF) :
    exec (.draw x y n) s = .next (s.drawSprite x y n.toNat).advance :=
  (exec_draw x y n s).trans (withAccess_fits _ ((accessFits_toNat_iff _ n).mpr h))

/-- With a byte of the sprite above 0xFFF Draw stops and draws nothing, whatever the flag parameter
(R174, D8). -/
theorem draw_stopsWith_dataBounds (x y : Reg) {n : BitVec 4} {s : State} (hn : n ≠ 0)
    (h : s.I.toNat + n.toNat - 1 > 0x0FFF) :
    StopsWith (.draw x y n) s .dataBounds (max s.I.toNat 0x1000) := by
  obtain ⟨m, hm⟩ := Nat.exists_eq_add_one_of_ne_zero (BitVec.toNat_ne_iff_ne.mpr hn)
  have hexec := exec_draw x y n s
  rw [hm] at hexec h
  exact stopsWith_of_access_exceeds hexec h

/-- With DRAW_WRITES_VF on, the sprite at `I` is drawn at the old coordinates and its collision signal
written to VF (D11). -/
theorem drawSprite_of_drawWritesVF {s : State} (x y : Reg) (n : Nat) (h : s.params.drawWritesVF = true) :
    s.drawSprite x y n =
      State.writeV { s with fb := (draw s.fb (s.readV x).toNat (s.readV y).toNat (s.readAtI n)).1 } VF
        (flagByte (draw s.fb (s.readV x).toNat (s.readV y).toNat (s.readAtI n)).2) :=
  if_pos h

/-- Settles O39: within the bound the rows are the bytes at `I`, and the one register written is VF. -/
theorem drawDrawsTheSpriteAtI : Obligations.DrawDrawsTheSpriteAtI := fun x y n s => by
  constructor
  · intro hflag hfits
    have hexec := exec_draw_fits x y hfits
    rw [drawSprite_of_drawWritesVF x y n.toNat hflag] at hexec
    exact ⟨_, s.readAtI n.toNat, hexec, Memory.readBytes_length _ _ _, Memory.readBytes_getElem _ _ _,
      rfl, fun r => readV_writeV _ VF r _, rfl⟩
  · exact draw_stopsWith_dataBounds x y

end Sys2Proof.Machine
end

section
/-! PROOFS. Keys and timers (spec/44_keypad_timers.md): WaitKey, the skips on a key with their stop, and the
copies between a timer and a register. -/

namespace Sys2Proof.Machine

/-! ### WaitKey (R119) -/

theorem exec_waitKey_of_firstDown_some {s : State} {k : KeyIndex} (x : Reg) (h : s.firstDown = some k) :
    exec (.waitKey x) s = .next (s.writeV x (BitVec.ofNat 8 k.val)).advance := by
  rw [exec, execWaitKey, h]

theorem exec_waitKey_of_firstDown_none {s : State} (x : Reg) (h : s.firstDown = none) :
    exec (.waitKey x) s = .next s.advance := by
  rw [exec, execWaitKey, h]

/-- A key index fits a byte, so it is the number its byte stands for. -/
theorem ofNat_keyIndex_toNat (k : KeyIndex) : (BitVec.ofNat 8 k.val).toNat = k.val :=
  Nat.mod_eq_of_lt (k.isLt.trans (by decide))

/-- Settles O43: the key WaitKey writes is the one `firstDown` finds; where that finds none it only
advances. -/
theorem waitKeyTakesTheLowestKey : Obligations.WaitKeyTakesTheLowestKey := fun x s => by
  constructor
  · intro k hdown hlower
    have hfirst : s.firstDown = some k := firstDown_some.mpr ⟨hdown, hlower⟩
    exact completesWith_of_writeV (exec_waitKey_of_firstDown_some x hfirst) (ofNat_keyIndex_toNat k)
  · intro hnone
    exact exec_waitKey_of_firstDown_none x (firstDown_none.mpr hnone)

/-! ### Skips on a key (R116, R117, R176)

The two operations are `State.skipOnKey`, one for a pressed key and one for a key that is not. -/

theorem exec_skipKeyDown (x : Reg) (s : State) : exec (.skipKeyDown x) s = s.skipOnKey x true := rfl

theorem exec_skipKeyUp (x : Reg) (s : State) : exec (.skipKeyUp x) s = s.skipOnKey x false := rfl

/-- Where `V[x]` names a key the skip is on that key. -/
theorem skipOnKey_of_key {s : State} {x : Reg} {k : KeyIndex} (wanted : Bool)
    (h : (s.readV x).toNat = k.val) :
    s.skipOnKey x wanted = .next (s.condAdvance (s.isDown k == wanted)) := by
  rw [State.skipOnKey, keyOperand_eq_some.mpr h]

/-- Where `V[x]` names no key both skips stop with its value (R176, D10). -/
theorem stopsWith_of_skipOnKey {i : Instr} {s : State} {x : Reg} {wanted : Bool}
    (hexec : exec i s = s.skipOnKey x wanted) (h : (s.readV x).toNat > 0x0F) :
    StopsWith i s .keyIndex (s.readV x).toNat := by
  rw [State.skipOnKey, keyOperand_eq_none.mpr h] at hexec
  exact ⟨_, hexec, zextByte_toNat _, rfl⟩

/-- A skip on what is true skips exactly then. -/
theorem condAdvance_beq_true (s : State) (b : Bool) :
    s.condAdvance (b == true) = { s with pc := if b = true then s.pc + 4 else s.pc + 2 } := by
  rw [beq_true]
  rfl

/-- A skip on what is false has the two advances the other way round. -/
theorem condAdvance_beq_false (s : State) (b : Bool) :
    s.condAdvance (b == false) = { s with pc := if b = true then s.pc + 2 else s.pc + 4 } := by
  cases b
  case false => rfl
  case true => rfl

/-- Settles O42: a value up to 0x0F names a key, whose state decides the skip; any other stops both. -/
theorem keySkips : Obligations.KeySkips := fun x s => by
  constructor
  · intro k hk
    constructor
    · rw [exec_skipKeyDown, skipOnKey_of_key true hk, condAdvance_beq_true, State.isDown]
    · rw [exec_skipKeyUp, skipOnKey_of_key false hk, condAdvance_beq_false, State.isDown]
  · intro habove
    exact ⟨stopsWith_of_skipOnKey (exec_skipKeyDown x s) habove,
      stopsWith_of_skipOnKey (exec_skipKeyUp x s) habove⟩

/-! ### The timers (R118, R120, R121) -/

theorem exec_getDelay (x : Reg) (s : State) : exec (.getDelay x) s = .next (s.writeV x s.dt).advance := rfl

theorem exec_setDelay (x : Reg) (s : State) :
    exec (.setDelay x) s = .next (State.advance { s with dt := s.readV x }) := rfl

theorem exec_setSound (x : Reg) (s : State) :
    exec (.setSound x) s = .next (State.advance { s with st := s.readV x }) := rfl

/-- Settles O44: each is one write, to a register or to a timer, and the advance of `pc`. -/
theorem timerCopies : Obligations.TimerCopies := fun x s =>
  ⟨completesWith_of_writeV (exec_getDelay x s) rfl, ⟨_, exec_setDelay x s, rfl, rfl⟩,
    ⟨_, exec_setSound x s, rfl, rfl⟩⟩

end Sys2Proof.Machine
end

section
/-! PROOFS. The host interface (spec/55_host_interface.md): LoadProgram and InstallFont with their bounds,
Tick and a run of Ticks, the key transactions, and the status outputs. -/

namespace Sys2Proof

/-! ### The bounds of the two loads (R152, R153) -/

theorem fontBaseFits_iff (base : Addr) : fontBaseFits base = true ↔ base.toNat ≤ 0x0FB0 := decide_eq_true_iff

theorem programFits_iff (bytes : List Byte) : programFits bytes = true ↔ bytes.length ≤ 3584 := decide_eq_true_iff

namespace Machine

/-! ### InstallFont (R153) -/

theorem transact_installFont_accepted {base : Addr} {s : State} (hready : s.phase = .ready)
    (hbase : base.toNat ≤ 0x0FB0) : transact (.installFont base) s = (s.installFont base, .accepted) :=
  if_pos ⟨hready, (fontBaseFits_iff base).mpr hbase⟩

theorem transact_installFont_refused {base : Addr} {s : State}
    (h : s.phase ≠ .ready ∨ base.toNat > 0x0FB0) : transact (.installFont base) s = (s, .refused) := by
  refine if_neg fun ⟨hready, hfits⟩ => ?_
  have hbase : base.toNat ≤ 0x0FB0 := (fontBaseFits_iff base).mp hfits
  exact h.elim (absurd hready) hbase.not_gt

/-- Byte `k` of FONT_ROM is read back at `base + k`. -/
theorem read_installFont_inside {base : Addr} {s : State} (hwf : Memory.wf s.mem = true)
    (hbase : base.toNat ≤ 0x0FB0) (k : Fin 80) :
    Memory.read (s.installFont base).mem (base.toNat + k.val) = s.params.fontRom[k] := by
  have hlen : s.params.fontRom.toList.length = 80 := Vector.length_toList
  have hfits : base.toNat + s.params.fontRom.toList.length ≤ Config.memSize := by
    rw [hlen, Config.memSize]
    omega
  exact (Memory.read_writeBytes_inside hwf hfits (k.isLt.trans_eq hlen.symm)).trans (Vector.getElem_toList _)

theorem read_installFont_outside {base : Addr} {a : Nat} (s : State)
    (ha : a < base.toNat ∨ a ≥ base.toNat + 80) :
    Memory.read (s.installFont base).mem a = Memory.read s.mem a := by
  have hlen : s.params.fontRom.toList.length = 80 := Vector.length_toList
  exact Memory.read_writeBytes_outside s.mem _ (hlen ▸ ha)

/-- Settles O53: with the base within its bound all 80 bytes lie in memory, so each is read back. -/
theorem installFontWritesTheFont : Obligations.InstallFontWritesTheFont := fun base s hwf => by
  constructor
  · intro hready hbase
    exact ⟨_, transact_installFont_accepted hready hbase, read_installFont_inside hwf hbase,
      fun _ ha => read_installFont_outside s ha, rfl, rfl⟩
  · exact transact_installFont_refused

/-! ### LoadProgram (R152) -/

theorem transact_loadProgram_accepted {bytes : List Byte} {s : State} (hready : s.phase = .ready)
    (hlen : bytes.length ≤ 3584) : transact (.loadProgram bytes) s = (s.loadProgram bytes, .accepted) :=
  if_pos ⟨hready, (programFits_iff bytes).mpr hlen⟩

theorem transact_loadProgram_refused {bytes : List Byte} {s : State}
    (h : s.phase ≠ .ready ∨ bytes.length > 3584) : transact (.loadProgram bytes) s = (s, .refused) := by
  refine if_neg fun ⟨hready, hfits⟩ => ?_
  have hlen : bytes.length ≤ 3584 := (programFits_iff bytes).mp hfits
  exact h.elim (absurd hready) hlen.not_gt

/-- Settles O54: 3584 bytes from 0x200 up are all that memory holds from there, so each is read back. -/
theorem loadProgramWritesTheProgram : Obligations.LoadProgramWritesTheProgram := fun bytes s hwf => by
  constructor
  · intro hready hlen
    have hfits : Config.programBase + bytes.length ≤ Config.memSize := Nat.add_le_add_left hlen 0x200
    exact ⟨_, transact_loadProgram_accepted hready hlen,
      fun _ hk => Memory.read_writeBytes_inside hwf hfits hk,
      fun _ ha => Memory.read_writeBytes_outside s.mem bytes ha, rfl⟩
  · exact transact_loadProgram_refused

/-! ### Tick (R154) -/

theorem transact_tick (s : State) : transact .tick s = (s.tick, .timers s.tick.dt s.tick.st) := rfl

/-- A timer steps down as a natural number does: by one, staying at 0. -/
theorem tickDown_toNat (t : Byte) : (tickDown t).toNat = t.toNat - 1 := by
  unfold tickDown
  split
  case isTrue hpos => exact BitVec.toNat_sub_of_le (y := 1#8) hpos
  case isFalse hzero => omega

/-- A timer that every Tick steps down is its old value less `n` after `n` Ticks: it follows the
predecessor. -/
theorem timer_iterate_tick_toNat {timer : State → Byte} (htick : ∀ s, timer s.tick = tickDown (timer s))
    (n : Nat) (s : State) :
    (timer ((fun u => (transact .tick u).1)^[n] s)).toNat = (timer s).toNat - n := by
  have hpred : Function.Semiconj (fun u => (timer u).toNat) (fun u => (transact .tick u).1) Nat.pred :=
    fun u => (congrArg BitVec.toNat (htick u)).trans (tickDown_toNat (timer u))
  exact (hpred.iterate_right n s).trans (Nat.pred_iterate _ n)

/-- Settles O51: both timers are stepped down alike, and nothing else is written. -/
theorem tickSaturatesAtZero : Obligations.TickSaturatesAtZero :=
  ⟨fun s => ⟨_, transact_tick s, tickDown_toNat s.dt, tickDown_toNat s.st, rfl⟩,
    fun n s => ⟨timer_iterate_tick_toNat State.tick_dt n s, timer_iterate_tick_toNat State.tick_st n s⟩⟩

/-! ### KeyDown and KeyUp (R155, R156) -/

/-- The two key transactions are one write to the key state. -/
theorem transact_key (i : KeyIndex) (b : Bool) (s : State) :
    transact (if b then .keyDown i else .keyUp i) s = (s.setKey i b, .accepted) := by
  cases b
  case false => rfl
  case true => rfl

theorem setKey_K_getElem (s : State) (i k : KeyIndex) (b : Bool) :
    (s.setKey i b).K[k] = if k = i then b else s.K[k] := by
  simp only [Fin.ext_iff, eq_comm (a := k.val)]
  exact Vector.getElem_set i.isLt k.isLt

theorem setKey_setKey (s : State) (i : KeyIndex) (b : Bool) : (s.setKey i b).setKey i b = s.setKey i b := by
  simp [State.setKey]

/-- Settles O52: a key transaction writes one key, and the same write again changes nothing. -/
theorem keyTransactions : Obligations.KeyTransactions := fun i b s => by
  refine ⟨s.setKey i b, transact_key i b s, fun k => setKey_K_getElem s i k b, rfl, ?_⟩
  rw [transact_key, setKey_setKey]

/-! ### The status outputs (R159) -/

theorem transact_readStatus (s : State) : transact .readStatus s = (s, .status s.status) := rfl

/-- Settles O55: each output is its element, and the live entries are the first `sp` of the stack. -/
theorem statusShowsTheState : Obligations.StatusShowsTheState := fun s =>
  ⟨_, transact_readStatus s, rfl, rfl, rfl, rfl, rfl, rfl, rfl, fun _ => rfl, rfl, rfl, rfl, rfl, rfl, rfl,
    List.length_take_of_le, fun _ => List.getElem?_take_of_lt, fun _ => List.getElem?_take_eq_none⟩

end Machine

end Sys2Proof
end

section
/-! PROOFS. Reset (spec/70_reset_and_hazards.md, R190): the host's Reset as one function of the state, which
the state after reset is a value of too, and the elements it clears entry by entry. -/

namespace Sys2Proof.Machine

theorem transact_reset (s : State) : transact .reset s = (s.hostReset, .accepted) := rfl

/-- The state after reset is one that the host's Reset leaves as it is. -/
theorem reset_hostReset : State.reset.hostReset = State.reset := rfl

/-! ### The elements that have entries (R10, R15, R23, R24) -/

theorem hostReset_readV (s : State) (r : Reg) : s.hostReset.readV r = 0x00#8 :=
  Vector.getElem_replicate r.isLt

theorem hostReset_isDown (s : State) (k : KeyIndex) : s.hostReset.isDown k = false :=
  Vector.getElem_replicate k.isLt

theorem hostReset_stack (s : State) : s.hostReset.stack = List.replicate s.params.stackDepth 0x0000#16 := rfl

theorem hostReset_stack_length (s : State) : s.hostReset.stack.length = s.params.stackDepth :=
  List.length_replicate

theorem eq_zero_of_mem_hostReset_stack {s : State} {a : Addr} (h : a ∈ s.hostReset.stack) : a = 0x0000#16 :=
  List.eq_of_mem_replicate (hostReset_stack s ▸ h)

theorem hostReset_fb (s : State) : s.hostReset.fb = clearedFb := rfl

theorem getPixel_hostReset_fb (s : State) (X Y : Nat) : getPixel s.hostReset.fb X Y = false :=
  hostReset_fb s ▸ getPixel_clearedFb X Y

/-! ### Every state right after reset (R190) -/

/-- RESET_PC is 0x200 (D2) and STACK_DEPTH 16 (D4) with the default parameters, which Reset keeps. -/
theorem hostReset_of_defaultParams {s : State} (h : s.params = Config.defaultParams) :
    s.hostReset.pc = 0x0200#16 ∧ s.hostReset.stack.length = 16 :=
  ⟨congrArg Config.Params.resetPC h, (hostReset_stack_length s).trans (congrArg Config.Params.stackDepth h)⟩

/-- A state right after reset, the initial one or any the host's Reset leaves, is some `s.hostReset`. -/
theorem exists_eq_hostReset {t : State} (h : t = State.reset ∨ ∃ s, t = (transact .reset s).1) :
    ∃ s : State, t = s.hostReset := by
  rcases h with rfl | ⟨s, rfl⟩
  · exact ⟨State.reset, reset_hostReset.symm⟩
  · exact ⟨s, congrArg Prod.fst (transact_reset s)⟩

/-- Settles O1: every state right after reset is some `s.hostReset`; the elements with entries have their
lemmas, and each other element is read off the definition. -/
theorem resetGivesEveryResetValue : Obligations.ResetGivesEveryResetValue := by
  refine ⟨fun s => congrArg Prod.snd (transact_reset s), fun t ht => ?_⟩
  obtain ⟨s, rfl⟩ := exists_eq_hostReset ht
  exact ⟨hostReset_readV s, rfl, hostReset_of_defaultParams, rfl, rfl, hostReset_stack_length s,
    fun _ => eq_zero_of_mem_hostReset_stack, rfl, rfl, fun _ => rfl, rfl, getPixel_hostReset_fb s,
    hostReset_isDown s, rfl, rfl, rfl, rfl, rfl⟩

end Sys2Proof.Machine
end

section
/-! PROOFS. The codec (R54, R56 to R58): decode and encode are inverse to each other, no word is spelled by
two rows, and the words that no row spells. -/

namespace Sys2Proof

/-! ### Fields of a literal word, and fields as numbers (R51) -/

theorem fieldT_ofNat (k : Nat) : fieldT (BitVec.ofNat 16 k) = BitVec.ofNat 4 (k / 4096) := by
  apply BitVec.eq_of_toNat_eq
  simp [fieldT, Nat.shiftRight_eq_div_pow]
  omega

theorem fieldN_ofNat (k : Nat) : fieldN (BitVec.ofNat 16 k) = BitVec.ofNat 4 k := by
  apply BitVec.eq_of_toNat_eq
  simp [fieldN]

theorem fieldKK_ofNat (k : Nat) : fieldKK (BitVec.ofNat 16 k) = BitVec.ofNat 8 k := by
  apply BitVec.eq_of_toNat_eq
  simp [fieldKK]

theorem fieldNNN_ofNat (k : Nat) : fieldNNN (BitVec.ofNat 16 k) = BitVec.ofNat 12 k := by
  apply BitVec.eq_of_toNat_eq
  simp [fieldNNN]

theorem fieldX_eq_iff (w : Word) (x : Reg) : fieldX w = x ↔ w.extractLsb' 8 4 = BitVec.ofFin (w := 4) x :=
  ⟨fun h => h ▸ rfl, congrArg BitVec.toFin⟩

theorem fieldY_eq_iff (w : Word) (y : Reg) : fieldY w = y ↔ w.extractLsb' 4 4 = BitVec.ofFin (w := 4) y :=
  ⟨fun h => h ▸ rfl, congrArg BitVec.toFin⟩

theorem fieldT_toNat (w : Word) : (fieldT w).toNat = w.toNat / 0x1000 := by
  have hw := w.isLt
  rw [fieldT, BitVec.extractLsb'_toNat, Nat.shiftRight_eq_div_pow]
  omega

theorem fieldN_toNat (w : Word) : (fieldN w).toNat = w.toNat % 16 := BitVec.extractLsb'_toNat _ _ _

theorem fieldKK_toNat (w : Word) : (fieldKK w).toNat = w.toNat % 256 := BitVec.extractLsb'_toNat _ _ _

/-! ### Decoding an encoded operation (R57 a) -/

/-- Each field of the encoded word is that of the operation: the row's pattern is zero there, and so are the
other fields placed. -/
theorem decode_encode (i : Instr) : decode (encode i) = some i := by
  cases i
  case clear => rfl
  case ret => rfl
  all_goals
    simp [decode, decodeFamily8, decodeFamilyE, decodeFamilyF, encode, fieldT_or, fieldN_or, fieldKK_or,
      fieldNNN_or, BitVec.extractLsb'_or, fieldX_eq_iff, fieldY_eq_iff, fieldT_ofNat, fieldN_ofNat,
      fieldKK_ofNat, fieldNNN_ofNat]

/-! ### Encoding a decoded word (R57 b)

A field placed back where it was read is what a mask keeps of the word, so that encoding a row's operation
puts the row's pattern beside the bits the row's mask does not look at. -/

theorem extractLsb'_placed_back (w : Word) (lsb n : Nat) :
    (w.extractLsb' lsb n).setWidth 16 <<< lsb = w &&& (BitVec.allOnes n).setWidth 16 <<< lsb := by
  ext k hk
  by_cases hlsb : lsb ≤ k
  · have hsum : lsb + (k - lsb) = k := Nat.add_sub_cancel' hlsb
    simp [hsum, hk, Bool.and_assoc, Bool.and_comm w[k]]
  · simp [Nat.not_le.mp hlsb]

theorem placeX_fieldX (w : Word) : placeX (fieldX w) = w &&& 0x0F00 := extractLsb'_placed_back w 8 4

theorem placeY_fieldY (w : Word) : placeY (fieldY w) = w &&& 0x00F0 := extractLsb'_placed_back w 4 4

theorem placeN_fieldN (w : Word) : placeN (fieldN w) = w &&& 0x000F :=
  (BitVec.shiftLeft_zero _).symm.trans (extractLsb'_placed_back w 0 4)

theorem placeKK_fieldKK (w : Word) : placeKK (fieldKK w) = w &&& 0x00FF :=
  (BitVec.shiftLeft_zero _).symm.trans (extractLsb'_placed_back w 0 8)

theorem placeNNN_fieldNNN (w : Word) : placeNNN (fieldNNN w) = w &&& 0x0FFF :=
  (BitVec.shiftLeft_zero _).symm.trans (extractLsb'_placed_back w 0 12)

theorem encode_operation {r : OpRow} (hr : r ∈ opcodeTable) (w : Word) :
    encode (r.operation w) = r.bits ||| w &&& ~~~r.mask := by
  revert r
  simp only [opcodeTable, rowsFix, rowsImmediate, rowsAlu, rowsIndexAndDraw, rowsKeyAndMisc,
    List.cons_append, List.nil_append, List.forall_mem_cons, encode, placeX_fieldX, placeY_fieldY,
    placeN_fieldN, placeKK_fieldKK, placeNNN_fieldNNN, ← BitVec.and_or_distrib_left]
  simp

theorem encode_of_decode {w : Word} {i : Instr} (h : decode w = some i) : encode i = w := by
  obtain ⟨r, hr, hbits, rfl⟩ := (spelledBy_opcodeTable w i).mpr h
  calc encode (r.operation w)
    _ = w &&& r.mask ||| w &&& ~~~r.mask := by rw [encode_operation hr, hbits]
    _ = w := by rw [← BitVec.and_or_distrib_left, BitVec.or_not_self, BitVec.and_allOnes]

/-! ### The words that decode to none (R58) -/

theorem decodeFamily0_eq_none_iff (w : Word) :
    decodeFamily0 w = none ↔ w.toNat ≠ 0x00E0 ∧ w.toNat ≠ 0x00EE := by
  rw [decodeFamily0]
  split_ifs <;> simp_all [BitVec.toNat_eq]

theorem decodeFamily8_eq_none_iff (w : Word) :
    decodeFamily8 w = none ↔ (fieldN w).toNat ∈ [8, 9, 0xA, 0xB, 0xC, 0xD, 0xF] := by
  rw [decodeFamily8]
  generalize fieldN w = n
  split
  case h_10 =>
    simp only [true_iff]
    revert n
    decide
  all_goals simp

theorem decodeFamilyE_eq_none_iff (w : Word) :
    decodeFamilyE w = none ↔ (fieldKK w).toNat ∉ [0x9E, 0xA1] := by
  rw [decodeFamilyE]
  split <;> simp_all [BitVec.toNat_eq]

theorem decodeFamilyF_eq_none_iff (w : Word) :
    decodeFamilyF w = none ↔
      (fieldKK w).toNat ∉ [0x07, 0x0A, 0x15, 0x18, 0x1E, 0x29, 0x33, 0x55, 0x65] := by
  rw [decodeFamilyF]
  split <;> simp_all [BitVec.toNat_eq]

/-- Six of the sixteen families have words that are no operation. -/
theorem decode_eq_none_iff (w : Word) :
    decode w = none ↔
      fieldT w = 0x0#4 ∧ decodeFamily0 w = none ∨ fieldT w = 0x5#4 ∧ fieldN w ≠ 0x0#4 ∨
      fieldT w = 0x8#4 ∧ decodeFamily8 w = none ∨ fieldT w = 0x9#4 ∧ fieldN w ≠ 0x0#4 ∨
      fieldT w = 0xE#4 ∧ decodeFamilyE w = none ∨ fieldT w = 0xF#4 ∧ decodeFamilyF w = none := by
  have hfamilies := every_family_listed (fieldT w)
  rw [decode]
  split <;> simp_all

/-! ### Two rows that match one word (R54) -/

/-- A word with the pattern of two rows makes the patterns agree where both masks look. -/
theorem bits_and_mask_comm_of_matches {r r' : OpRow} {w : Word} (h : r.matches w = true)
    (h' : r'.matches w = true) : r.bits &&& r'.mask = r'.bits &&& r.mask := by
  simp only [OpRow.matches, beq_iff_eq] at h h'
  rw [← h, ← h', BitVec.and_assoc, BitVec.and_comm r.mask, BitVec.and_assoc]

/-- No two rows of the table agree where both masks look. -/
theorem opcodeTable_rows_disagree (j k : Fin 34)
    (h : opcodeTable[j].bits &&& opcodeTable[k].mask = opcodeTable[k].bits &&& opcodeTable[j].mask) :
    j = k := by
  revert j k
  decide

namespace Machine

/-- Settles O7: the two inverse laws; the other two laws follow from them. -/
theorem codecRoundTrip : Obligations.CodecRoundTrip :=
  ⟨decode_encode, fun _ _ => encode_of_decode,
    fun _ _ _ h h' => (encode_of_decode h).symm.trans (encode_of_decode h'),
    fun i h => nomatch (decode_encode i).symm.trans h⟩

/-- Settles O9: two rows that match one word agree where both masks look, so they are one row. -/
theorem noTwoRowsMatchOneWord : Obligations.NoTwoRowsMatchOneWord :=
  ⟨rfl, fun _ j k hj hk hj' hk' =>
    Fin.mk.inj_iff.mp (opcodeTable_rows_disagree ⟨j, hj⟩ ⟨k, hk⟩ (bits_and_mask_comm_of_matches hj' hk'))⟩

/-- Settles O10: family by family, each field read as a number. -/
theorem invalidWordsAreThese : Obligations.InvalidWordsAreThese := fun w => by
  simp only [decode_eq_none_iff, decodeFamily0_eq_none_iff, decodeFamily8_eq_none_iff,
    decodeFamilyE_eq_none_iff, decodeFamilyF_eq_none_iff, ← BitVec.toNat_inj, fieldT_toNat, fieldN_toNat,
    fieldKK_toNat, ne_eq]
  simp

/-- Settles O11: each sample is a closed word, which the decoder evaluates. -/
theorem sampleWordsDecode : Obligations.SampleWordsDecode := by
  unfold Obligations.SampleWordsDecode
  decide

end Machine

end Sys2Proof
end

section
/-! PROOFS. What an operation can do, said once: why it stops, or the shape of its completion. The frames and
the invariants below are case splits over these shapes. -/

namespace Sys2Proof.Machine

/-- Why operation `i` stops in state `s`: the cause and the datum it records (R174 to R176). -/
inductive StopsBecause (s : State) : Instr → StopCause → Word → Prop
  | outOfRange {i : Instr} (x y : Reg) (n : BitVec 4)
      (hi : i ∈ [.draw x y n, .toBCD x, .storeRegs x, .loadRegs x]) :
      StopsBecause s i .dataBounds (firstOutOfRange s.I)
  | allFramesLive (nnn : BitVec 12) (hfull : ¬ s.sp < s.params.stackDepth) :
      StopsBecause s (.call nnn) .stackOverflow (encode (.call nnn))
  | namesNoKey {i : Instr} {x : Reg} (hi : i ∈ [.skipKeyDown x, .skipKeyUp x])
      (hvalue : (s.readV x).toNat > 0x0F) : StopsBecause s i .keyIndex (zextByte (s.readV x))

/-- The state operation `i` completes with in state `s`, up to the values it computes (R134, R135). -/
inductive Completes (s : State) : Instr → State → Prop
  | clear : Completes s .clear (State.advance { s with fb := clearedFb })
  | ret : Completes s .ret s.popReturn
  | jump (nnn : BitVec 12) : Completes s (.jump nnn) (s.jumpTo (zextAddress nnn))
  | jumpOffset (nnn : BitVec 12) :
      Completes s (.jumpOffset nnn) (s.jumpTo (zextByte (s.readV V0) + zextAddress nnn))
  | call (nnn : BitVec 12) (hfree : s.sp < s.params.stackDepth) :
      Completes s (.call nnn)
        { s with stack := s.stack.set s.sp (s.pc + 2), sp := s.sp + 1, pc := zextAddress nnn }
  | skip {i : Instr} (taken : Bool) (hi : pcClass i = .skip) : Completes s i (s.condAdvance taken)
  | writesV {i : Instr} {x : Reg} (v : Byte) (hi : destination i = some x) (hflag : writesFlag i = false) :
      Completes s i (s.writeV x v).advance
  | writesVF {i : Instr} {x : Reg} (v : Byte) (flag : Bool) (hi : destination i = some x)
      (hflag : writesFlag i = true) : Completes s i (s.writeResultAndFlag x v (flagByte flag)).advance
  | random (x : Reg) (kk : Byte) :
      Completes s (.random x kk) (s.consumeRandom.writeMasked x s.nextRandom kk).advance
  | noKeyDown (x : Reg) : Completes s (.waitKey x) s.advance
  | writesI {i : Instr} (a : Addr) (hi : (∃ nnn, i = .loadI nnn) ∨ ∃ x, i = .addToI x ∨ i = .fontAddr x) :
      Completes s i (s.writeI a).advance
  | stores {i : Instr} {x : Reg} (hi : i ∈ [.toBCD x, .storeRegs x])
      (hfits : s.I.toNat + (storedBytes i s).length ≤ Config.memSize) :
      Completes s i (s.storeAtI (storedBytes i s)).advance
  | loadRegs (x : Reg) :
      Completes s (.loadRegs x) (State.advance { s with V := loadRegsFrom 0 (s.readAtI (x.val + 1)) s.V })
  | draw (x y : Reg) (n : BitVec 4) : Completes s (.draw x y n) (s.drawSprite x y n.toNat).advance
  | setDelay (x : Reg) : Completes s (.setDelay x) (State.advance { s with dt := s.readV x })
  | setSound (x : Reg) : Completes s (.setSound x) (State.advance { s with st := s.readV x })

/-- A data access of at least one byte that fits ends inside memory (R31). -/
theorem add_le_memSize_of_accessFits {a n : Nat} (h : accessFits a (n + 1) = true) :
    a + (n + 1) ≤ Config.memSize :=
  ((accessFits_iff a (n + 1)).mp h).resolve_left (Nat.succ_ne_zero n)

/-- What operation `i` did where it answers `t`: it completed, or it stopped and changed nothing else. -/
def CompletesOrStops (i : Instr) (s t : State) : Prop :=
  Completes s i t ∨ ∃ cause info, StopsBecause s i cause info ∧ t = s.raiseStop cause info

theorem completesOrStops_of_withAccess {i : Instr} {s t e : State} {n : Nat} (h : s.withAccess n e = .next t)
    (x y : Reg) (m : BitVec 4) (hi : i ∈ [.draw x y m, .toBCD x, .storeRegs x, .loadRegs x])
    (he : accessFits s.I.toNat n = true → Completes s i e) : CompletesOrStops i s t := by
  rcases withAccess_next h with ⟨hfits, rfl⟩ | ⟨-, ht⟩
  · exact .inl (he hfits)
  · exact .inr ⟨_, _, .outOfRange x y m hi, ht⟩

theorem completesOrStops_of_skipOnKey {i : Instr} {s t : State} {x : Reg} {wanted : Bool}
    (h : s.skipOnKey x wanted = .next t) (hskip : pcClass i = .skip)
    (hi : i ∈ [.skipKeyDown x, .skipKeyUp x]) : CompletesOrStops i s t := by
  rcases skipOnKey_next h with ⟨k, -, rfl⟩ | ⟨hvalue, ht⟩
  · exact .inl (.skip _ hskip)
  · exact .inr ⟨_, _, .namesNoKey hi hvalue, ht⟩

theorem exec_next {i : Instr} {s t : State} (h : exec i s = .next t) : CompletesOrStops i s t := by
  cases i
  case call nnn =>
    rcases execCall_next h with ⟨hfree, rfl⟩ | ⟨hfull, ht⟩
    · exact .inl (.call nnn hfree)
    · exact .inr ⟨_, _, .allFramesLive nnn hfull, ht⟩
  case waitKey x =>
    cases hk : s.firstDown with
    | some k =>
      cases (exec_waitKey_of_firstDown_some x hk).symm.trans h
      exact .inl (.writesV _ rfl rfl)
    | none =>
      cases (exec_waitKey_of_firstDown_none x hk).symm.trans h
      exact .inl (.noKeyDown x)
  case draw x y n => exact completesOrStops_of_withAccess h x y n (by simp) fun _ => .draw x y n
  case loadRegs x => exact completesOrStops_of_withAccess h x x 0 (by simp) fun _ => .loadRegs x
  case toBCD x =>
    refine completesOrStops_of_withAccess h x x 0 (by simp) fun hfits => .stores (x := x) (by simp) ?_
    exact add_le_memSize_of_accessFits hfits
  case storeRegs x =>
    refine completesOrStops_of_withAccess h x x 0 (by simp) fun hfits => .stores (x := x) (by simp) ?_
    exact (regBytes_length s x).symm ▸ add_le_memSize_of_accessFits hfits
  case skipKeyDown x => exact completesOrStops_of_skipOnKey h rfl (by simp)
  case skipKeyUp x => exact completesOrStops_of_skipOnKey h rfl (by simp)
  all_goals cases h; left
  case clear => exact .clear
  case ret => exact .ret
  case jump nnn => exact .jump nnn
  case jumpOffset nnn => exact .jumpOffset nnn
  case random x kk => exact .random x kk
  case setDelay x => exact .setDelay x
  case setSound x => exact .setSound x
  case skipEq | skipNeq | skipEqReg | skipNeqReg => exact .skip _ rfl
  case load | addImm | move | orReg | andReg | xorReg | getDelay => exact .writesV _ rfl rfl
  case addReg | subReg | shiftRight | subRegRev | shiftLeft => exact .writesVF _ _ rfl rfl
  case loadI nnn => exact .writesI _ (.inl ⟨nnn, rfl⟩)
  case addToI x => exact .writesI _ (.inr ⟨x, .inl rfl⟩)
  case fontAddr x => exact .writesI _ (.inr ⟨x, .inr rfl⟩)

/-! ### The compound completions as updates -/

/-- Draw changes the framebuffer and the registers only (R110). -/
theorem drawSprite_eq (s : State) (x y : Reg) (n : Nat) :
    s.drawSprite x y n = { s with V := (s.drawSprite x y n).V, fb := (s.drawSprite x y n).fb } := by
  rw [State.drawSprite, State.writeCollision_eq]

/-- Return changes `pc` and the frame count only (R70). -/
theorem popReturn_eq (s : State) : s.popReturn = { s with pc := s.popReturn.pc, sp := s.popReturn.sp } := by
  rcases popReturn_cases s with ⟨n, a, -, -, hpop⟩ | ⟨-, hpop⟩ <;> rw [hpop]

/-! ### Every operation answers (log entry 6) -/

theorem exists_withAccess_eq_next (s : State) (n : Nat) (e : State) : ∃ t, s.withAccess n e = .next t := by
  cases hfits : accessFits s.I.toNat n with
  | true => exact ⟨_, withAccess_fits e hfits⟩
  | false => exact ⟨_, withAccess_stops e hfits⟩

theorem exists_skipOnKey_eq_next (s : State) (x : Reg) (wanted : Bool) :
    ∃ t, s.skipOnKey x wanted = .next t := by
  rw [State.skipOnKey]
  split <;> exact ⟨_, rfl⟩

theorem exists_exec_eq_next (i : Instr) (s : State) : ∃ t, exec i s = .next t := by
  cases i
  case call nnn =>
    by_cases hfree : s.sp < s.params.stackDepth
    · exact ⟨_, exec_call_free nnn hfree⟩
    · exact ⟨_, exec_call_full nnn hfree⟩
  case waitKey x =>
    cases hk : s.firstDown with
    | some k => exact ⟨_, exec_waitKey_of_firstDown_some x hk⟩
    | none => exact ⟨_, exec_waitKey_of_firstDown_none x hk⟩
  case draw | toBCD | storeRegs | loadRegs => exact exists_withAccess_eq_next _ _ _
  case skipKeyDown | skipKeyUp => exact exists_skipOnKey_eq_next _ _ _
  all_goals exact ⟨_, rfl⟩

end Sys2Proof.Machine
end

section
/-! PROOFS. What an operation leaves alone and where it leaves `pc` (spec/10_state.md, D1, R135): the frames of
registers, memory and every other element, the flag's value, and the classes of the program counter. -/

namespace Sys2Proof.Machine

/-! ### The registers (R10, R11) -/

/-- An operation that may not write `r` has another destination, does not write `r` as the flag, and does not
load it. -/
theorem not_written_of_mayWriteV_eq_false {i : Instr} {r : Reg} (h : mayWriteV i r = false) :
    destination i ≠ some r ∧ (writesFlag i = true → r ≠ VF) ∧ ∀ x, i = .loadRegs x → ¬ r ≤ x := by
  simp only [mayWriteV, Bool.or_eq_false_iff, Bool.and_eq_false_imp, beq_eq_false_iff_ne] at h
  obtain ⟨⟨hdest, hflag⟩, hload⟩ := h
  refine ⟨hdest, hflag, ?_⟩
  rintro x rfl
  exact of_decide_eq_false hload

theorem readV_writeV_of_ne {r x : Reg} (s : State) (v : Byte) (h : r ≠ x) :
    (s.writeV x v).readV r = s.readV r :=
  (readV_writeV s x r v).trans (if_neg h)

theorem readV_writeCollision_of_ne_VF {r : Reg} (s : State) (collision : Bool) (h : r ≠ VF) :
    (s.writeCollision collision).readV r = s.readV r := by
  rw [State.writeCollision]
  split
  · exact readV_writeV_of_ne s _ h
  · rfl

theorem Completes.readV_eq {i : Instr} {s t : State} {r : Reg} (h : Completes s i t)
    (hr : mayWriteV i r = false) : t.readV r = s.readV r := by
  obtain ⟨hdest, hflag, hload⟩ := not_written_of_mayWriteV_eq_false hr
  have ne_of_destination {x : Reg} (hi : destination i = some x) : r ≠ x := fun hrx => hdest (hrx ▸ hi)
  cases h with
  | ret => rw [popReturn_eq]; rfl
  | writesV v hi => exact readV_writeV_of_ne s v (ne_of_destination hi)
  | @writesVF _ x v _ hi hwrites =>
    exact (readV_writeV_of_ne (s.writeV x v) _ (hflag hwrites)).trans
      (readV_writeV_of_ne s v (ne_of_destination hi))
  | random => exact readV_writeV_of_ne s.consumeRandom _ (ne_of_destination rfl)
  | loadRegs x => exact (loadRegsFrom_readAtI_getElem s x r).trans (if_neg (hload x rfl))
  | draw => exact readV_writeCollision_of_ne_VF _ _ (hflag rfl)
  | _ => rfl

/-- Settles O45: a register an operation may not write is in no shape of completion written. -/
theorem registerFrame : Obligations.RegisterFrame := fun i s t r h hr => by
  rcases exec_next h with hc | ⟨_, _, -, rfl⟩
  · exact hc.readV_eq hr
  · rfl

/-! ### The flag (R11) -/

theorem readV_writeV_flagByte (s : State) (flag : Bool) :
    (s.writeV VF (flagByte flag)).readV VF = 0x00#8 ∨ (s.writeV VF (flagByte flag)).readV VF = 0x01#8 := by
  rw [readV_writeV, if_pos rfl]
  exact flagByte_zero_or_one flag

theorem writesFlag_of_skip {i : Instr} (h : pcClass i = .skip) : writesFlag i = false := by
  cases i <;> simp_all [pcClass, writesFlag]

/-- Settles O46: a flag writer is Draw or writes the flag last, after the result, so also where the
destination is VF. -/
theorem flagIsZeroOrOne : Obligations.FlagIsZeroOrOne := fun i s t hwrites hparam _ h ht => by
  rcases exec_next h with hc | ⟨_, _, -, rfl⟩
  · cases hc with
    | draw x y n =>
      rw [drawSprite_of_drawWritesVF x y n.toNat hparam]
      exact readV_writeV_flagByte _ _
    | writesVF => exact readV_writeV_flagByte _ _
    | skip taken hi => nomatch (writesFlag_of_skip hi).symm.trans hwrites
    | writesV v hi hflag => nomatch hflag.symm.trans hwrites
    | writesI a hi => rcases hi with ⟨nnn, rfl⟩ | ⟨x, rfl | rfl⟩ <;> nomatch hwrites
    | stores hi =>
      simp only [List.mem_cons, List.not_mem_nil, or_false] at hi
      rcases hi with rfl | rfl <;> nomatch hwrites
    | _ => nomatch hwrites
  · exact absurd rfl ht

/-! ### Memory (R32, R43) -/

/-- Settles O47: the only completion that writes memory is a store of the operation's bytes at `I`. -/
theorem memoryFrame : Obligations.MemoryFrame := fun i s t a h ha => by
  rcases exec_next h with hc | ⟨_, _, -, rfl⟩
  · cases hc with
    | stores => exact Memory.read_writeBytes_outside s.mem _ ha
    | ret => rw [popReturn_eq]
    | draw => rw [drawSprite_eq]; rfl
    | _ => rfl
  · rfl

/-! ### Every other element (D1) -/

theorem StopsBecause.cause_ne_none {i : Instr} {s : State} {cause : StopCause} {info : Word}
    (h : StopsBecause s i cause info) : cause ≠ .none := by
  cases h <;> decide

/-- Settles O48: each shape of completion names the elements it writes, and a stop writes the phase and the
record. -/
theorem elementFrames : Obligations.ElementFrames := fun i s t h => by
  rcases exec_next h with hc | ⟨cause, info, hwhy, rfl⟩
  · cases hc with
    | ret => rw [popReturn_eq]; simp
    | draw => rw [drawSprite_eq]; simp
    | writesI a hi => simp [hi]
    | _ => simp
  · simp [State.raiseStop, hwhy.cause_ne_none]

/-! ### The program counter (R135) -/

theorem pcClass_of_destination {i : Instr} {x : Reg} (h : destination i = some x) : pcClass i = .other := by
  cases i <;> simp_all [destination, pcClass]

theorem pcClass_of_stores {i : Instr} {x : Reg} (h : i ∈ [.toBCD x, .storeRegs x]) : pcClass i = .other := by
  simp only [List.mem_cons, List.not_mem_nil, or_false] at h
  rcases h with rfl | rfl <;> rfl

theorem pcClass_of_writesI {i : Instr}
    (h : (∃ nnn, i = .loadI nnn) ∨ ∃ x, i = .addToI x ∨ i = .fontAddr x) : pcClass i = .other := by
  rcases h with ⟨nnn, rfl⟩ | ⟨x, rfl | rfl⟩ <;> rfl

theorem Completes.pc_of_other {i : Instr} {s t : State} (h : Completes s i t) (hclass : pcClass i = .other) :
    t.pc = s.pc + 2 := by
  cases h with
  | ret | jump | jumpOffset | call => nomatch hclass
  | skip taken hi => nomatch hi.symm.trans hclass
  | draw => rw [drawSprite_eq]; rfl
  | _ => rfl

theorem Completes.pc_of_skip {i : Instr} {s t : State} (h : Completes s i t) (hclass : pcClass i = .skip) :
    t.pc = s.pc + 4 ∨ t.pc = s.pc + 2 := by
  cases h with
  | skip taken =>
    cases taken
    case true => exact .inl rfl
    case false => exact .inr rfl
  | writesV v hi | writesVF v flag hi => nomatch (pcClass_of_destination hi).symm.trans hclass
  | writesI a hi => nomatch (pcClass_of_writesI hi).symm.trans hclass
  | stores hi => nomatch (pcClass_of_stores hi).symm.trans hclass
  | _ => nomatch hclass

/-- The four targets: two immediates, the sum of JumpOffset, and the entry Return pops, if there is one. -/
theorem Completes.pc_of_controlFlow {i : Instr} {s t : State} (h : Completes s i t)
    (hstack : s.sp ≤ s.stack.length) (hclass : pcClass i = .controlFlow) :
    (∃ nnn, (i = .jump nnn ∨ i = .call nnn) ∧ t.pc.toNat = nnn.toNat) ∨
      (∃ nnn, i = .jumpOffset nnn ∧ t.pc.toNat = (s.readV 0).toNat + nnn.toNat) ∨
      (i = .ret ∧ s.sp = 0 ∧ t.pc = s.pc) ∨ (i = .ret ∧ ∃ k, s.sp = k + 1 ∧ s.stack[k]? = some t.pc) := by
  cases h with
  | jump nnn => exact .inl ⟨nnn, .inl rfl, zextAddress_toNat nnn⟩
  | call nnn => exact .inl ⟨nnn, .inr rfl, zextAddress_toNat nnn⟩
  | jumpOffset nnn => exact .inr (.inl ⟨nnn, rfl, zextByte_add_zextAddress_toNat _ nnn⟩)
  | ret =>
    rcases popReturn_cases s with ⟨n, a, hsp, ha, hpop⟩ | ⟨hempty, hpop⟩ <;> rw [hpop]
    · exact .inr (.inr (.inr ⟨rfl, n, hsp, ha⟩))
    · exact .inr (.inr (.inl ⟨rfl, hempty.resolve_right hstack.not_gt, rfl⟩))
  | skip taken hi => nomatch hi.symm.trans hclass
  | writesV v hi | writesVF v flag hi => nomatch (pcClass_of_destination hi).symm.trans hclass
  | writesI a hi => nomatch (pcClass_of_writesI hi).symm.trans hclass
  | stores hi => nomatch (pcClass_of_stores hi).symm.trans hclass
  | _ => nomatch hclass

/-- Settles O18: an operation that does not stop completes, and each class has its own completions. -/
theorem programCounterContract : Obligations.ProgramCounterContract := fun i s t hstack _ h ht => by
  rcases exec_next h with hc | ⟨_, _, -, rfl⟩
  · exact ⟨hc.pc_of_other, hc.pc_of_skip, hc.pc_of_controlFlow hstack⟩
  · exact absurd rfl ht

end Sys2Proof.Machine
end

section
/-! PROOFS. Laws of single operations that build on the ones above: reverse subtraction, Random, Draw without
the flag, Call followed by Return, and a store over the next instruction. -/

namespace Sys2Proof.Machine

/-- Settles O27: the subtraction of O26 with the operands exchanged; the flag is 1 where it does not wrap. -/
theorem reverseSubtraction : Obligations.ReverseSubtraction := fun _ _ _ =>
  completesWithFlag_of_writeResultAndFlag rfl (byte_sub_toNat _ _) (noBorrowFlag_toNat _ _)

/-- Settles O29: Random is one register write, of the byte presented and masked; a mask only clears bits. -/
theorem randomIsAMaskedByte : Obligations.RandomIsAMaskedByte := fun x kk s => by
  have hx : (s.consumeRandom.writeMasked x s.nextRandom kk).advance.readV x = s.nextRandom &&& kk :=
    (readV_writeV s.consumeRandom x x _).trans (if_pos rfl)
  refine ⟨_, rfl, hx, fun r hr => readV_writeV_of_ne s.consumeRandom _ hr, ?_, ?_, rfl⟩
  · rw [hx, BitVec.and_assoc, BitVec.and_not_self]
    exact BitVec.and_zero
  · rw [hx, BitVec.toNat_and]
    exact Nat.and_le_right

/-- With DRAW_WRITES_VF off, the sprite at `I` is drawn and no register written (log entry 7). -/
theorem drawSprite_of_not_drawWritesVF {s : State} (x y : Reg) (n : Nat) (h : s.params.drawWritesVF = false) :
    s.drawSprite x y n =
      { s with fb := (draw s.fb (s.readV x).toNat (s.readV y).toNat (s.readAtI n)).1 } :=
  if_neg (Bool.eq_false_iff.mp h)

/-- Settles O40: the bound of Draw, the sprite and the coordinates do not depend on the parameter. -/
theorem drawWithoutTheFlag : Obligations.DrawWithoutTheFlag := fun x y n s hoff hfits => by
  have hoffStep := exec_draw_fits (s := s) x y hfits
  have honStep := exec_draw_fits (s := { s with params := { s.params with drawWritesVF := true } }) x y hfits
  rw [drawSprite_of_not_drawWritesVF x y n.toNat hoff] at hoffStep
  rw [drawSprite_of_drawWritesVF x y n.toNat rfl] at honStep
  exact ⟨_, _, hoffStep, honStep, rfl, rfl⟩

/-- Settles O22: the entry Return pops is the one the Call pushed; the entries below are as before. -/
theorem callThenReturnResumesAfterTheCall : Obligations.CallThenReturnResumesAfterTheCall := by
  intro nnn s t u v hlen hfree hcall husp hustack hret
  cases (exec_call_free nnn hfree).symm.trans hcall
  have htop : u.stack[s.sp]? = some (s.pc + 2) := by
    rw [hustack]
    exact List.getElem?_set_self (hlen ▸ hfree)
  rw [exec_ret, popReturn_live husp htop] at hret
  cases hret
  refine ⟨rfl, rfl, fun k hk => ?_⟩
  rw [hustack]
  exact List.getElem?_set_ne hk.ne'

/-- Settles O34: StoreRegs leaves `pc` at `I`, so the fetch reads the first two bytes stored. -/
theorem storeIsSeenByTheNextFetch : Obligations.StoreIsSeenByTheNextFetch := by
  intro x s t hwf hpc hI hx _ h ht
  rcases withAccess_next h with ⟨hfits, -⟩ | ⟨-, rfl⟩
  · have hbound : s.I.toNat + x.val ≤ 0x0FFF := (accessFits_succ_iff _ _).mp hfits
    obtain ⟨t', ht', hstored, -, heq⟩ := (storeRegsStoresTheRegisters x s hwf).1 hbound
    cases h.symm.trans ht'
    have hpcI : t.pc = s.I := by rw [heq, hI]
    have hlast : s.I.toNat ≤ 0x0FFE := by rw [hI]; bv_omega
    have hfirst : Memory.read t.mem s.I.toNat = s.readV 0 := hstored 0 (Fin.zero_le x)
    have hsecond : Memory.read t.mem (s.I.toNat + 1) = s.readV 1 := hstored 1 hx
    rw [fetchWord_some, hpcI, hfirst, hsecond]
    exact ⟨hlast, rfl⟩
  · exact absurd rfl ht

end Sys2Proof.Machine
end

section
/-! PROOFS. What no operation reads (R15, R25, U25): the last-fetched word, and the stack above the live
entries. One law replaces both at once: the operation does the same, and a Call still writes its entry. -/

namespace Sys2Proof.Machine

/-- The state with another stack and another last-fetched word. -/
def State.withUnread (s : State) (stack : List Addr) (ir : Word) (irValid : Bool) : State :=
  { s with stack := stack, ir := ir, irValid := irValid }

/-- What the operation makes of a stack it finds: only a Call writes it (R138). -/
def stackAfter (i : Instr) (s : State) (stack : List Addr) : List Addr :=
  match i with
  | .call _ => if s.sp < s.params.stackDepth then stack.set s.sp (s.pc + 2) else stack
  | _ => stack

theorem stackAfter_of_not_call {i : Instr} (hi : ∀ nnn, i ≠ .call nnn) (s : State) (stack : List Addr) :
    stackAfter i s stack = stack := by
  cases i
  case call nnn => exact absurd rfl (hi nnn)
  all_goals rfl

/-! ### The operations that read the stack or branch -/

theorem drawSprite_withUnread (s : State) (x y : Reg) (n : Nat) (stack : List Addr) (w : Word) (b : Bool) :
    (s.withUnread stack w b).drawSprite x y n = (s.drawSprite x y n).withUnread stack w b := by
  rw [State.drawSprite, State.drawSprite, State.writeCollision_eq, State.writeCollision_eq]
  rfl

/-- Return reads the last live entry only. -/
theorem popReturn_withUnread {s : State} {stack : List Addr}
    (hlive : ∀ k, k < s.sp → stack[k]? = s.stack[k]?) (w : Word) (b : Bool) :
    (s.withUnread stack w b).popReturn = s.popReturn.withUnread stack w b := by
  cases hsp : s.sp with
  | zero => simp [State.popReturn, State.withUnread, hsp]
  | succ n =>
    have htop : stack[n]? = s.stack[n]? := hlive n (hsp ▸ Nat.lt_succ_self n)
    cases hentry : s.stack[n]? <;> simp [State.popReturn, State.withUnread, hsp, htop, hentry]

theorem exec_call_withUnread {nnn : BitVec 12} {s t : State} (h : exec (.call nnn) s = .next t)
    (stack : List Addr) (w : Word) (b : Bool) :
    exec (.call nnn) (s.withUnread stack w b) = .next (t.withUnread (stackAfter (.call nnn) s stack) w b) := by
  rcases execCall_next h with ⟨hfree, rfl⟩ | ⟨hfull, rfl⟩
  · rw [stackAfter, if_pos hfree]
    exact exec_call_free nnn hfree
  · rw [stackAfter, if_neg hfull]
    exact exec_call_full nnn hfull

theorem withAccess_withUnread {s t e : State} {n : Nat} (h : s.withAccess n e = .next t) (stack : List Addr)
    (w : Word) (b : Bool) :
    (s.withUnread stack w b).withAccess n (e.withUnread stack w b) = .next (t.withUnread stack w b) := by
  rcases withAccess_next h with ⟨hfits, rfl⟩ | ⟨hfits, rfl⟩
  · exact withAccess_fits _ hfits
  · exact withAccess_stops _ hfits

theorem skipOnKey_of_no_key {s : State} {x : Reg} (wanted : Bool) (h : (s.readV x).toNat > 0x0F) :
    s.skipOnKey x wanted = .next (s.raiseStop .keyIndex (zextByte (s.readV x))) := by
  rw [State.skipOnKey, keyOperand_eq_none.mpr h]

theorem skipOnKey_withUnread {s t : State} {x : Reg} {wanted : Bool} (h : s.skipOnKey x wanted = .next t)
    (stack : List Addr) (w : Word) (b : Bool) :
    (s.withUnread stack w b).skipOnKey x wanted = .next (t.withUnread stack w b) := by
  rcases skipOnKey_next h with ⟨k, hk, rfl⟩ | ⟨hvalue, rfl⟩
  · exact skipOnKey_of_key wanted hk
  · exact skipOnKey_of_no_key wanted hvalue

/-! ### Every operation -/

theorem exec_withUnread {i : Instr} {s t : State} {stack : List Addr} (h : exec i s = .next t)
    (hlive : ∀ k, k < s.sp → stack[k]? = s.stack[k]?) (w : Word) (b : Bool) :
    exec i (s.withUnread stack w b) = .next (t.withUnread (stackAfter i s stack) w b) := by
  cases i
  case call nnn => exact exec_call_withUnread h stack w b
  case ret =>
    cases h
    exact congrArg Host.Outcome.next (popReturn_withUnread hlive w b)
  case draw x y n =>
    rw [exec_draw, drawSprite_withUnread]
    exact withAccess_withUnread h stack w b
  case toBCD | storeRegs | loadRegs => exact withAccess_withUnread h stack w b
  case skipKeyDown | skipKeyUp => exact skipOnKey_withUnread h stack w b
  case waitKey x =>
    cases hk : s.firstDown with
    | some k =>
      cases (exec_waitKey_of_firstDown_some x hk).symm.trans h
      exact exec_waitKey_of_firstDown_some x hk
    | none =>
      cases (exec_waitKey_of_firstDown_none x hk).symm.trans h
      exact exec_waitKey_of_firstDown_none x hk
  all_goals cases h; rfl

/-- The operation leaves the last-fetched word as it is, and the stack as `stackAfter` says. -/
theorem exec_eq_withUnread {i : Instr} {s t : State} (h : exec i s = .next t) :
    t = t.withUnread (stackAfter i s s.stack) s.ir s.irValid :=
  Host.Outcome.next.inj (h.symm.trans (exec_withUnread h (fun _ _ => rfl) s.ir s.irValid))

theorem exec_stack {i : Instr} {s t : State} (h : exec i s = .next t) : t.stack = stackAfter i s s.stack :=
  congrArg State.stack (exec_eq_withUnread h)

theorem exec_irValid {i : Instr} {s t : State} (h : exec i s = .next t) : t.irValid = s.irValid :=
  (congrArg State.irValid (exec_eq_withUnread h)).trans rfl

/-- Settles O49: the stack is kept and only the last-fetched word is another. -/
theorem lastFetchHasNoEffect : Obligations.LastFetchHasNoEffect := fun i s t w b h => by
  have hunread := exec_withUnread h (fun _ _ => rfl) w b
  rw [← exec_stack h] at hunread
  exact hunread

end Sys2Proof.Machine
end

section
/-! PROOFS. The instruction step and the host's moves (R131, R150, R160 to R162): an equation per case, what a
step that stops leaves, and what a transaction leaves. -/

namespace Sys2Proof.Machine

/-! ### The instruction step, case by case (R131 to R134) -/

theorem enabled_eq_true_iff (p : Phase) : p.enabled = true ↔ p = .ready ∨ p = .fetch := by
  cases p <;> simp [Phase.enabled]

theorem enabled_eq_false_iff (p : Phase) : p.enabled = false ↔ p ≠ .ready ∧ p ≠ .fetch := by
  cases p <;> simp [Phase.enabled]

theorem instructionStep_of_disabled {s : State} (h : s.phase.enabled = false) : instructionStep s = .next s := by
  rw [instructionStep, h, if_neg Bool.false_ne_true]

theorem instructionStep_of_fetch_none {s : State} (h : s.phase.enabled = true) (hf : s.fetchWord = none) :
    instructionStep s = .next (s.raiseStop .fetchBounds s.pc) := by
  rw [instructionStep, if_pos h, hf]

theorem instructionStep_of_decode_none {s : State} {w : Word} (h : s.phase.enabled = true)
    (hf : s.fetchWord = some w) (hd : decode w = none) :
    instructionStep s = .next ((s.latchWord w).raiseStop .decodeNone w) := by
  simp only [instructionStep, if_pos h, hf, hd]

theorem instructionStep_of_decode_some {s : State} {w : Word} {i : Instr} (h : s.phase.enabled = true)
    (hf : s.fetchWord = some w) (hd : decode w = some i) :
    instructionStep s = endStepOf (exec i (s.latchWord w).enterExecute) := by
  simp only [instructionStep, if_pos h, hf, hd]

/-! ### The end of a step (R130) -/

theorem endStep_of_not_stopped {s : State} (h : s.phase ≠ .stopped) : s.endStep = { s with phase := .fetch } :=
  if_neg h

theorem endStep_phase_ne_ready (s : State) : s.endStep.phase ≠ .ready := by
  rw [State.endStep_eq]
  dsimp only
  split <;> nofun

theorem phase_stopped_of_endStep {s : State} (h : s.endStep.phase = .stopped) : s.phase = .stopped := by
  by_contra hrunning
  rw [endStep_of_not_stopped hrunning] at h
  nomatch h

/-! ### Every step answers (log entries 4, 5 and 6) -/

theorem exists_instructionStep_eq_next (s : State) : ∃ t, instructionStep s = .next t := by
  cases he : s.phase.enabled with
  | false => exact ⟨_, instructionStep_of_disabled he⟩
  | true =>
    cases hf : s.fetchWord with
    | none => exact ⟨_, instructionStep_of_fetch_none he hf⟩
    | some w =>
      cases hd : decode w with
      | none => exact ⟨_, instructionStep_of_decode_none he hf hd⟩
      | some i =>
        obtain ⟨u, hu⟩ := exists_exec_eq_next i (s.latchWord w).enterExecute
        exact ⟨u.endStep, by rw [instructionStep_of_decode_some he hf hd, hu, endStepOf_next]⟩

theorem exists_step_eq_next (s : State) : ∃ t, step s = .next t := by
  cases hm : s.host.next with
  | mk move rest =>
    cases move with
    | permitStep =>
      rw [step_permit hm]
      exact exists_instructionStep_eq_next _
    | issue tr => exact ⟨_, step_issue hm⟩

/-- Settles O6: case by case, for the operation, the instruction step and the host's move. -/
theorem everyOperationAndStepAnswers : Obligations.EveryOperationAndStepAnswers :=
  ⟨exists_exec_eq_next, exists_step_eq_next⟩

/-! ### A permitted step (R131, R171, R173, R180) -/

/-- Settles O12: the equation of the step whose word decodes; its end is the conditional of the statement. -/
theorem stepRunsTheDecodedOperation : Obligations.StepRunsTheDecodedOperation := by
  intro s rest w i u hnext hphase hpc hw hd hexec
  have henabled : s.phase.enabled = true := (enabled_eq_true_iff _).mpr hphase
  have hfetch : s.fetchWord = some w := fetchWord_some.mpr ⟨hpc, hw⟩
  rw [step_permit hnext]
  exact (instructionStep_of_decode_some (s := { s with host := rest }) henabled hfetch hd).trans
    (congrArg endStepOf hexec)

/-- Settles O13: the equations of the steps that stop at fetch and at decode. -/
theorem stepStopsAtFetchAndDecode : Obligations.StepStopsAtFetchAndDecode := by
  intro s rest hnext hphase
  have henabled : s.phase.enabled = true := (enabled_eq_true_iff _).mpr hphase
  rw [step_permit hnext]
  exact ⟨fun hpc => instructionStep_of_fetch_none henabled (fetchWord_none.mpr hpc),
    fun w hpc hw => instructionStep_of_decode_none henabled (fetchWord_some.mpr ⟨hpc, hw⟩)⟩

/-- Settles O17: each way to stop writes the record on the state latched, and an operation that stops changes
nothing else. -/
theorem stopsArePrecise : Obligations.StopsArePrecise := by
  intro s t rest hnext hphase h ht
  rw [step_permit hnext] at h
  rcases instructionStep_next h with
    ⟨-, rfl⟩ | ⟨-, -, rfl⟩ | ⟨w, -, -, -, rfl⟩ | ⟨w, i, u, -, -, -, hexec, rfl⟩
  · exact absurd ht hphase
  · rfl
  · rfl
  · rcases exec_runs_or_stops hexec with ⟨hrunning, -, -⟩ | ⟨cause, info, -, rfl⟩
    · nomatch hrunning.symm.trans (phase_stopped_of_endStep ht)
    · rfl

/-! ### Transactions (R161, R162) -/

theorem transact_installFont_cases (base : Addr) (s : State) :
    (s.phase = .ready ∧ base.toNat ≤ 0x0FB0 ∧
        transact (.installFont base) s = (s.installFont base, .accepted)) ∨
      ((s.phase ≠ .ready ∨ base.toNat > 0x0FB0) ∧ transact (.installFont base) s = (s, .refused)) := by
  by_cases h : s.phase = .ready ∧ base.toNat ≤ 0x0FB0
  · exact .inl ⟨h.1, h.2, transact_installFont_accepted h.1 h.2⟩
  · rw [not_and_or, not_le] at h
    exact .inr ⟨h, transact_installFont_refused h⟩

theorem transact_loadProgram_cases (bytes : List Byte) (s : State) :
    (s.phase = .ready ∧ bytes.length ≤ 3584 ∧
        transact (.loadProgram bytes) s = (s.loadProgram bytes, .accepted)) ∨
      ((s.phase ≠ .ready ∨ bytes.length > 3584) ∧ transact (.loadProgram bytes) s = (s, .refused)) := by
  by_cases h : s.phase = .ready ∧ bytes.length ≤ 3584
  · exact .inl ⟨h.1, h.2, transact_loadProgram_accepted h.1 h.2⟩
  · rw [not_and_or, not_le] at h
    exact .inr ⟨h, transact_loadProgram_refused h⟩

/-- Settles O57: only the two loads write memory, and only in READY; only Tick writes the timers. -/
theorem hostWritesNoCoreState : Obligations.HostWritesNoCoreState := fun tr s hreset => by
  cases tr with
  | reset => exact absurd rfl hreset
  | installFont base =>
    rcases transact_installFont_cases base s with ⟨hready, -, h⟩ | ⟨-, h⟩ <;> rw [h]
    · exact ⟨rfl, fun _ => ⟨rfl, rfl⟩, absurd hready⟩
    · exact ⟨rfl, fun _ => ⟨rfl, rfl⟩, fun _ => ⟨rfl, rfl⟩⟩
  | loadProgram bytes =>
    rcases transact_loadProgram_cases bytes s with ⟨hready, -, h⟩ | ⟨-, h⟩ <;> rw [h]
    · exact ⟨rfl, fun _ => ⟨rfl, rfl⟩, absurd hready⟩
    · exact ⟨rfl, fun _ => ⟨rfl, rfl⟩, fun _ => ⟨rfl, rfl⟩⟩
  | tick => exact ⟨rfl, absurd rfl, fun _ => ⟨rfl, rfl⟩⟩
  | keyDown | keyUp | get | readStatus => exact ⟨rfl, fun _ => ⟨rfl, rfl⟩, fun _ => ⟨rfl, rfl⟩⟩

theorem transact_phase_of_ne_reset {tr : Transaction} (hreset : tr ≠ .reset) (s : State) :
    (transact tr s).1.phase = s.phase :=
  (congrArg State.phase (hostWritesNoCoreState tr s hreset).1).trans rfl

/-- Settles O56: only the two loads are ever refused, for the phase or for their bound. -/
theorem acceptanceByPhase : Obligations.AcceptanceByPhase := fun tr s => by
  cases tr with
  | installFont base =>
    refine ⟨fun hne => absurd rfl (hne base), fun hrefused => ?_,
      fun hphase _ => transact_installFont_refused (.inl hphase)⟩
    rcases transact_installFont_cases base s with ⟨-, -, h⟩ | ⟨hwhy, h⟩ <;> rw [h] at hrefused ⊢
    · nomatch hrefused
    · exact ⟨rfl, hwhy.imp_right fun hbase => decide_eq_false hbase.not_ge⟩
  | loadProgram bytes =>
    refine ⟨fun _ hne => absurd rfl (hne bytes), fun hrefused => ?_,
      fun hphase _ => transact_loadProgram_refused (.inl hphase)⟩
    rcases transact_loadProgram_cases bytes s with ⟨-, -, h⟩ | ⟨hwhy, h⟩ <;> rw [h] at hrefused ⊢
    · nomatch hrefused
    · exact ⟨rfl, hwhy.imp_right fun hlen => decide_eq_false hlen.not_ge⟩
  | reset | tick | keyDown | keyUp | get | readStatus => exact ⟨nofun, nofun, nofun⟩

/-- Settles O58: the equations of a step for the two kinds of moves; in STOPPED no step is enabled. -/
theorem hostMoveIsOneStep : Obligations.HostMoveIsOneStep := by
  refine ⟨fun _ _ _ => step_issue, fun rest s hnext hstopped => ?_⟩
  rw [step_permit hnext]
  exact instructionStep_of_disabled ((enabled_eq_false_iff _).mpr (by rw [hstopped]; decide))

end Sys2Proof.Machine
end

section
/-! PROOFS. Dead stack entries (R15, U25): states that agree but for them take steps to states that agree but
for them, whatever the move. -/

namespace Sys2Proof.Machine

namespace SameButDeadStack

theorem exists_stack {s s' : State} (hs : SameButDeadStack s s') :
    ∃ stack : List Addr, s' = s.withUnread stack s.ir s.irValid ∧ stack.length = s.stack.length ∧
      ∀ k, k < s.sp → stack[k]? = s.stack[k]? :=
  ⟨s'.stack, hs⟩

theorem phase_eq {s s' : State} (hs : SameButDeadStack s s') : s'.phase = s.phase :=
  (congrArg State.phase hs.1).trans rfl

theorem host_eq {s s' : State} (hs : SameButDeadStack s s') : s'.host = s.host :=
  (congrArg State.host hs.1).trans rfl

theorem fetchWord_eq {s s' : State} (hs : SameButDeadStack s s') : s'.fetchWord = s.fetchWord :=
  (congrArg State.fetchWord hs.1).trans rfl

/-- The status outputs show the live entries only (R159). -/
theorem status_eq {s s' : State} (hs : SameButDeadStack s s') : s'.status = s.status := by
  obtain ⟨stack, rfl, -, hlive⟩ := hs.exists_stack
  have htake : stack.take s.sp = s.stack.take s.sp := by
    apply List.ext_getElem?
    intro k
    rw [List.getElem?_take, List.getElem?_take]
    exact ite_congr rfl (hlive k) fun _ => rfl
  simp only [State.status, State.withUnread, htake]

/-- An update that neither reads nor writes stack and frame count keeps the relation. -/
theorem update {s s' : State} (hs : SameButDeadStack s s') (f : State → State)
    (hf : ∀ stack, f { s with stack := stack } = { f s with stack := stack }) (hsp : (f s).sp = s.sp)
    (hstack : (f s).stack = s.stack) : SameButDeadStack (f s) (f s') := by
  obtain ⟨stack, rfl, hlen, hlive⟩ := hs.exists_stack
  have hfs' : f (s.withUnread stack s.ir s.irValid) = { f s with stack := stack } := hf stack
  rw [hfs']
  exact ⟨rfl, hstack ▸ hlen, hstack ▸ hsp ▸ hlive⟩

end SameButDeadStack

/-! ### An operation -/

theorem exec_sp_le_of_not_call {i : Instr} {s t : State} (h : exec i s = .next t) (hi : ∀ nnn, i ≠ .call nnn) :
    t.sp ≤ s.sp := by
  rcases exec_next h with hc | ⟨_, _, -, rfl⟩
  · cases hc with
    | call nnn => exact absurd rfl (hi nnn)
    | ret =>
      rcases popReturn_cases s with ⟨n, a, hsp, -, hpop⟩ | ⟨-, hpop⟩ <;> rw [hpop]
      exact hsp ▸ Nat.le_succ n
    | draw => rw [drawSprite_eq]; rfl
    | _ => rfl
  · rfl

/-- Stacks that agree on the live entries still do after the operation: a Call writes one entry to both. -/
theorem stackAfter_live {i : Instr} {s t : State} {stack : List Addr} (h : exec i s = .next t)
    (hlen : stack.length = s.stack.length) (hlive : ∀ k, k < s.sp → stack[k]? = s.stack[k]?) :
    (stackAfter i s stack).length = t.stack.length ∧
      ∀ k, k < t.sp → (stackAfter i s stack)[k]? = t.stack[k]? := by
  by_cases hcall : ∃ nnn, i = .call nnn
  · obtain ⟨nnn, rfl⟩ := hcall
    rcases execCall_next h with ⟨hfree, rfl⟩ | ⟨hfull, rfl⟩
    · rw [stackAfter, if_pos hfree, List.length_set, List.length_set]
      refine ⟨hlen, fun k hk => ?_⟩
      rcases Nat.lt_succ_iff_lt_or_eq.mp hk with hbelow | rfl
      · rw [List.getElem?_set_ne hbelow.ne', List.getElem?_set_ne hbelow.ne', hlive k hbelow]
      · simp only [List.getElem?_set, hlen, if_true]
    · rw [stackAfter, if_neg hfull]
      exact ⟨hlen, hlive⟩
  · have hi : ∀ nnn, i ≠ .call nnn := not_exists.mp hcall
    rw [exec_stack h, stackAfter_of_not_call hi, stackAfter_of_not_call hi]
    exact ⟨hlen, fun k hk => hlive k (hk.trans_le (exec_sp_le_of_not_call h hi))⟩

theorem exec_sameButDeadStack {i : Instr} {s s' t : State} (hs : SameButDeadStack s s')
    (h : exec i s = .next t) : ∃ t', exec i s' = .next t' ∧ SameButDeadStack t t' := by
  obtain ⟨stack, rfl, hlen, hlive⟩ := hs.exists_stack
  refine ⟨_, exec_withUnread h hlive s.ir s.irValid, ?_, stackAfter_live h hlen hlive⟩
  rw [exec_eq_withUnread h]
  rfl

/-! ### A step -/

theorem endStep_withStack (s : State) (stack : List Addr) :
    State.endStep { s with stack := stack } = { s.endStep with stack := stack } := by
  rw [State.endStep_eq, State.endStep_eq]

theorem instructionStep_sameButDeadStack {s s' t : State} (hs : SameButDeadStack s s')
    (h : instructionStep s = .next t) : ∃ t', instructionStep s' = .next t' ∧ SameButDeadStack t t' := by
  rcases instructionStep_next h with
      ⟨he, rfl⟩ | ⟨he, hf, rfl⟩ | ⟨w, he, hf, hd, rfl⟩ | ⟨w, i, u, he, hf, hd, hexec, rfl⟩ <;>
    rw [← hs.phase_eq] at he
  · exact ⟨s', instructionStep_of_disabled he, hs⟩
  all_goals rw [← hs.fetchWord_eq] at hf
  · exact ⟨_, instructionStep_of_fetch_none he hf,
      hs.update (fun u => u.raiseStop .fetchBounds u.pc) (fun _ => rfl) rfl rfl⟩
  · exact ⟨_, instructionStep_of_decode_none he hf hd,
      hs.update (fun u => (u.latchWord w).raiseStop .decodeNone w) (fun _ => rfl) rfl rfl⟩
  · have hlatched := hs.update (fun u => (u.latchWord w).enterExecute) (fun _ => rfl) rfl rfl
    obtain ⟨u', hexec', hu⟩ := exec_sameButDeadStack hlatched hexec
    refine ⟨u'.endStep, ?_, hu.update State.endStep (endStep_withStack u) ?_ ?_⟩
    · rw [instructionStep_of_decode_some he hf hd, hexec', endStepOf_next]
    · rw [State.endStep_eq]
    · rw [State.endStep_eq]

theorem transact_sameButDeadStack {s s' : State} (hs : SameButDeadStack s s') (tr : Transaction) :
    SameButDeadStack (transact tr s).1 (transact tr s').1 := by
  have hphase := hs.phase_eq
  cases tr with
  | reset =>
    obtain ⟨stack, rfl, -, -⟩ := hs.exists_stack
    exact ⟨rfl, rfl, fun _ _ => rfl⟩
  | installFont base =>
    rcases transact_installFont_cases base s with ⟨hready, hbase, h⟩ | ⟨hwhy, h⟩ <;> rw [h]
    · rw [transact_installFont_accepted (hphase.trans hready) hbase]
      exact hs.update (·.installFont base) (fun _ => rfl) rfl rfl
    · rw [transact_installFont_refused (hphase ▸ hwhy)]
      exact hs
  | loadProgram bytes =>
    rcases transact_loadProgram_cases bytes s with ⟨hready, hlen, h⟩ | ⟨hwhy, h⟩ <;> rw [h]
    · rw [transact_loadProgram_accepted (hphase.trans hready) hlen]
      exact hs.update (·.loadProgram bytes) (fun _ => rfl) rfl rfl
    · rw [transact_loadProgram_refused (hphase ▸ hwhy)]
      exact hs
  | tick => exact hs.update State.tick (fun _ => rfl) rfl rfl
  | keyDown i => exact hs.update (·.setKey i true) (fun _ => rfl) rfl rfl
  | keyUp i => exact hs.update (·.setKey i false) (fun _ => rfl) rfl rfl
  | get | readStatus => exact hs

theorem step_sameButDeadStack {s s' t : State} (hs : SameButDeadStack s s') (h : step s = .next t) :
    ∃ t', step s' = .next t' ∧ SameButDeadStack t t' := by
  rcases step_next h with ⟨rest, hnext, hstep⟩ | ⟨tr, rest, hnext, rfl⟩ <;>
    have hless := hs.update (fun u => { u with host := rest }) (fun _ => rfl) rfl rfl <;>
    rw [← hs.host_eq] at hnext
  · rw [step_permit hnext]
    exact instructionStep_sameButDeadStack hless hstep
  · exact ⟨_, step_issue hnext, transact_sameButDeadStack hless tr⟩

/-- Settles O50: the relation is kept by every step, and related states show the host the same. -/
theorem deadStackEntriesHaveNoEffect : Obligations.DeadStackEntriesHaveNoEffect := fun s s' t hs h => by
  obtain ⟨t', h', ht⟩ := step_sameButDeadStack hs h
  exact ⟨t', h', ht, ht.status_eq⟩

end Sys2Proof.Machine
end

section
/-! PROOFS. The invariants of the machine (spec/10_state.md, 60_exceptions.md, 70_reset_and_hazards.md): what
holds at every instruction boundary, the freshness of READY, and the truth of a stop's record. `{ hs with .. }`
proves an invariant of an updated state: only the fields about elements the update writes are given anew. -/

namespace Sys2Proof.Machine

/-! ### The two parts of the invariant -/

/-- The part of `Inv` about what operations compute with: memory, addresses and the call stack. -/
structure DataInv (s : State) : Prop where
  memory : Memory.wf s.mem = true
  pcBound : s.pc.toNat ≤ 0x10FE
  stackFits : s.stackFits ∧ 1 ≤ s.params.stackDepth
  liveBound : ∀ a ∈ s.stack.take s.sp, a.toNat ≤ 0x1000
  fontBound : s.fontBase.toNat ≤ Config.maxFontBase
  resetBound : s.params.resetPC.toNat ≤ 0x10FE

/-- The part of `Inv` about the phase: what it says of the stop record and of the last fetch. -/
structure PhaseInv (s : State) : Prop where
  boundary : s.phase.atBoundary = true
  cause : s.phase = .stopped ↔ s.stopCause ≠ .none
  noInfo : s.stopCause = .none → s.stopInfo = 0
  fetchedOnce : (s.phase = .ready → s.irValid = false) ∧ (s.phase = .fetch → s.irValid = true)

theorem inv_iff (s : State) : Inv s ↔ DataInv s ∧ PhaseInv s := by
  constructor
  · rintro ⟨hmem, hboundary, hcause, hinfo, hfetched, hpc, hstack, hlive, hfont, hreset⟩
    exact ⟨⟨hmem, hpc, hstack, hlive, hfont, hreset⟩, hboundary, hcause, hinfo, hfetched⟩
  · rintro ⟨⟨hmem, hpc, hstack, hlive, hfont, hreset⟩, hboundary, hcause, hinfo, hfetched⟩
    exact ⟨hmem, hboundary, hcause, hinfo, hfetched, hpc, hstack, hlive, hfont, hreset⟩

/-! ### Reset (R190) -/

theorem dataInv_hostReset {s : State} (hdepth : 1 ≤ s.params.stackDepth)
    (hreset : s.params.resetPC.toNat ≤ 0x10FE) : DataInv s.hostReset where
  memory := rfl
  pcBound := hreset
  stackFits := ⟨⟨hostReset_stack_length s, Nat.zero_le _⟩, hdepth⟩
  liveBound := nofun
  fontBound := Nat.zero_le _
  resetBound := hreset

theorem phaseInv_hostReset (s : State) : PhaseInv s.hostReset where
  boundary := rfl
  cause := ⟨nofun, absurd rfl⟩
  noInfo _ := rfl
  fetchedOnce := ⟨fun _ => rfl, nofun⟩

theorem fresh_hostReset (s : State) : Fresh s.hostReset := ⟨rfl, rfl, rfl, rfl, ⟨rfl, rfl⟩, rfl, ⟨rfl, rfl⟩⟩

theorem stopRecord_of_cause_none {s : State} (h : s.stopCause = .none) : StopRecord s := by
  rw [StopRecord, h]
  trivial

/-- Settles O2: the state after reset is one that the host's Reset leaves. -/
theorem invariantsHoldAtReset : Obligations.InvariantsHoldAtReset :=
  have hdata : DataInv State.reset.hostReset := dataInv_hostReset (by decide) (by decide)
  ⟨(inv_iff State.reset).mpr ⟨hdata, phaseInv_hostReset State.reset⟩, fresh_hostReset State.reset,
    stopRecord_of_cause_none rfl⟩

/-! ### What a step keeps of memory, addresses and stack (R12, R14, R15, R19, R153) -/

/-- A push of an address within the bound keeps the live entries within it (R72). -/
theorem liveBound_push {stack : List Addr} {sp : Nat} {a : Addr}
    (hlive : ∀ b ∈ stack.take sp, b.toNat ≤ 0x1000) (ha : a.toNat ≤ 0x1000) :
    ∀ b ∈ (stack.set sp a).take (sp + 1), b.toNat ≤ 0x1000 := by
  intro b hb
  rw [List.take_add_one, List.take_set_of_le (le_refl sp), List.mem_append] at hb
  rcases hb with hb | hb
  · exact hlive b hb
  · have hba : b = a := by simp_all [List.getElem?_set]
    exact hba ▸ ha

theorem DataInv.popReturn {s : State} (hs : DataInv s) : DataInv s.popReturn := by
  rcases popReturn_cases s with ⟨n, a, hn, ha, hpop⟩ | ⟨-, hpop⟩ <;> rw [hpop]
  · obtain ⟨⟨hlen, hsp⟩, hdepth⟩ := hs.stackFits
    have hlt : n < s.sp := hn ▸ Nat.lt_succ_self n
    have hlast : a ∈ s.stack.take s.sp := List.mem_of_getElem? ((List.getElem?_take_of_lt hlt).trans ha)
    exact { hs with
      pcBound := (hs.liveBound a hlast).trans (by decide)
      stackFits := ⟨⟨hlen, hlt.le.trans hsp⟩, hdepth⟩
      liveBound := fun b hb => hs.liveBound b (List.take_subset_take_left _ hlt.le hb) }
  · exact hs

/-- From a `pc` that can be fetched every completion keeps `DataInv`: the largest `pc` is JumpOffset's. -/
theorem Completes.dataInv {i : Instr} {s t : State} (h : Completes s i t) (hs : DataInv s)
    (hpc : s.pc.toNat ≤ 0x0FFE) : DataInv t := by
  have hreturn : (s.pc + 2).toNat ≤ 0x1000 := by bv_omega
  have hnext : (s.pc + 2).toNat ≤ 0x10FE := hreturn.trans (by decide)
  cases h with
  | ret => exact hs.popReturn
  | jump nnn =>
    have hn := nnn.isLt
    exact { hs with pcBound := by rw [State.jumpTo_pc, zextAddress_toNat]; omega }
  | jumpOffset nnn =>
    have hv := (s.readV V0).isLt
    have hn := nnn.isLt
    exact { hs with pcBound := by rw [State.jumpTo_pc, zextByte_add_zextAddress_toNat]; omega }
  | call nnn hfree =>
    obtain ⟨⟨hlen, -⟩, hdepth⟩ := hs.stackFits
    have hn := nnn.isLt
    exact { hs with
      pcBound := by rw [zextAddress_toNat]; omega
      stackFits := ⟨⟨List.length_set.trans hlen, hfree⟩, hdepth⟩
      liveBound := liveBound_push hs.liveBound hreturn }
  | skip taken =>
    have hskip : (s.pc + 4).toNat ≤ 0x10FE := by bv_omega
    refine { hs with pcBound := ?_ }
    cases taken
    case false => exact hnext
    case true => exact hskip
  | stores hi hfits =>
    exact { hs with memory := Memory.wf_writeBytes hs.memory hfits, pcBound := hnext }
  | draw => rw [drawSprite_eq]; exact { hs with pcBound := hnext }
  | _ => exact { hs with pcBound := hnext }

theorem exec_dataInv {i : Instr} {s t : State} (h : exec i s = .next t) (hs : DataInv s)
    (hpc : s.pc.toNat ≤ 0x0FFE) : DataInv t := by
  rcases exec_next h with hc | ⟨_, _, -, rfl⟩
  · exact hc.dataInv hs hpc
  · exact { hs with }

theorem instructionStep_dataInv {s t : State} (h : instructionStep s = .next t) (hs : DataInv s) :
    DataInv t := by
  rcases instructionStep_next h with
    ⟨-, rfl⟩ | ⟨-, -, rfl⟩ | ⟨w, -, -, -, rfl⟩ | ⟨w, i, u, -, hf, -, hexec, rfl⟩
  · exact hs
  · exact { hs with }
  · exact { hs with }
  · have hu : DataInv u := exec_dataInv hexec { hs with } (fetchWord_some.mp hf).1
    rw [State.endStep_eq]
    exact { hu with }

theorem transact_dataInv {s : State} (hs : DataInv s) (tr : Transaction) : DataInv (transact tr s).1 := by
  cases tr with
  | reset => exact dataInv_hostReset hs.stackFits.2 hs.resetBound
  | installFont base =>
    rcases transact_installFont_cases base s with ⟨-, hbase, h⟩ | ⟨-, h⟩ <;> rw [h]
    · have hfits : base.toNat + s.params.fontRom.toList.length ≤ Config.memSize := by
        rw [Vector.length_toList]
        exact Nat.add_le_add_right hbase 80
      exact { hs with memory := Memory.wf_writeBytes hs.memory hfits, fontBound := hbase }
    · exact hs
  | loadProgram bytes =>
    rcases transact_loadProgram_cases bytes s with ⟨-, hlen, h⟩ | ⟨-, h⟩ <;> rw [h]
    · exact { hs with memory := Memory.wf_writeBytes hs.memory (Nat.add_le_add_left hlen 0x200) }
    · exact hs
  | tick | keyDown | keyUp | get | readStatus => exact { hs with }

theorem step_dataInv {s t : State} (h : step s = .next t) (hs : DataInv s) : DataInv t := by
  rcases step_next h with ⟨rest, -, hstep⟩ | ⟨tr, rest, -, rfl⟩
  · exact instructionStep_dataInv hstep { hs with }
  · exact transact_dataInv (s := { s with host := rest }) { hs with } tr

/-! ### What a step keeps of phase, record and last fetch (R25, R26, R27, R170) -/

theorem phaseInv_raiseStop (s : State) {cause : StopCause} (hcause : cause ≠ .none) (info : Word) :
    PhaseInv (s.raiseStop cause info) where
  boundary := rfl
  cause := ⟨fun _ => hcause, fun _ => rfl⟩
  noInfo h := absurd h hcause
  fetchedOnce := ⟨nofun, nofun⟩

theorem phaseInv_fetch {s : State} (hcause : s.stopCause = .none) (hinfo : s.stopInfo = 0)
    (hvalid : s.irValid = true) : PhaseInv { s with phase := .fetch } where
  boundary := rfl
  cause := ⟨nofun, absurd hcause⟩
  noInfo _ := hinfo
  fetchedOnce := ⟨nofun, fun _ => hvalid⟩

theorem PhaseInv.cause_none_of_enabled {s : State} (hs : PhaseInv s) (he : s.phase.enabled = true) :
    s.stopCause = .none := by
  by_contra hcause
  rw [hs.cause.mpr hcause] at he
  nomatch he

theorem instructionStep_phaseInv {s t : State} (h : instructionStep s = .next t) (hs : PhaseInv s) :
    PhaseInv t := by
  rcases instructionStep_next h with
    ⟨-, rfl⟩ | ⟨-, -, rfl⟩ | ⟨w, -, -, -, rfl⟩ | ⟨w, i, u, he, -, -, hexec, rfl⟩
  · exact hs
  · exact phaseInv_raiseStop s (by decide) s.pc
  · exact phaseInv_raiseStop (s.latchWord w) (by decide) w
  · rcases exec_runs_or_stops hexec with ⟨hphase, hcause, hinfo⟩ | ⟨cause, info, hcause, rfl⟩
    · have hnone := hs.cause_none_of_enabled he
      have hrunning : u.phase ≠ .stopped := hphase ▸ nofun
      rw [endStep_of_not_stopped hrunning]
      exact phaseInv_fetch (hcause.trans hnone) (hinfo.trans (hs.noInfo hnone)) (exec_irValid hexec)
    · exact phaseInv_raiseStop _ hcause info

theorem transact_phaseInv {s : State} (hs : PhaseInv s) (tr : Transaction) : PhaseInv (transact tr s).1 := by
  by_cases hreset : tr = .reset
  · subst hreset
    exact phaseInv_hostReset s
  · rw [(hostWritesNoCoreState tr s hreset).1]
    exact { hs with }

theorem step_phaseInv {s t : State} (h : step s = .next t) (hs : PhaseInv s) : PhaseInv t := by
  rcases step_next h with ⟨rest, -, hstep⟩ | ⟨tr, rest, -, rfl⟩
  · exact instructionStep_phaseInv hstep { hs with }
  · exact transact_phaseInv (s := { s with host := rest }) { hs with } tr

/-- Settles O3: a step keeps both parts of the invariant. -/
theorem everyStepKeepsTheInvariant : Obligations.EveryStepKeepsTheInvariant := fun s t hinv h => by
  obtain ⟨hdata, hphase⟩ := (inv_iff s).mp hinv
  exact (inv_iff t).mpr ⟨step_dataInv h hdata, step_phaseInv h hphase⟩

/-! ### READY (R192, R193) -/

/-- No instruction step ends in READY, and where none is enabled the phase is not READY either. -/
theorem instructionStep_phase_ne_ready {s t : State} (h : instructionStep s = .next t) : t.phase ≠ .ready := by
  rcases instructionStep_next h with
    ⟨he, rfl⟩ | ⟨-, -, rfl⟩ | ⟨w, -, -, -, rfl⟩ | ⟨w, i, u, -, -, -, -, rfl⟩
  · exact ((enabled_eq_false_iff _).mp he).1
  · nofun
  · nofun
  · exact endStep_phase_ne_ready u

/-- A transaction writes nothing of what `Fresh` speaks of, but for Tick, under which a timer at 0 stays. -/
theorem transact_fresh {s : State} (hs : Fresh s) (tr : Transaction) : Fresh (transact tr s).1 := by
  by_cases hreset : tr = .reset
  · subst hreset
    exact fresh_hostReset s
  obtain ⟨heq, htimers, -⟩ := hostWritesNoCoreState tr s hreset
  obtain ⟨hdt, hst⟩ := hs.timers
  rw [heq]
  refine { hs with timers := ?_ }
  by_cases htick : tr = .tick
  · subst htick
    exact ⟨congrArg tickDown hdt, congrArg tickDown hst⟩
  · obtain ⟨hdt', hst'⟩ := htimers htick
    exact ⟨hdt'.trans hdt, hst'.trans hst⟩

/-- Settles O4: a step that ends in READY is a transaction, either Reset or one made in READY. -/
theorem readyStaysFresh : Obligations.ReadyStaysFresh := fun s t hs h ht => by
  rcases step_next h with ⟨rest, -, hstep⟩ | ⟨tr, rest, -, rfl⟩
  · exact absurd ht (instructionStep_phase_ne_ready hstep)
  · by_cases hreset : tr = .reset
    · subst hreset
      exact fresh_hostReset { s with host := rest }
    · have hready : s.phase = .ready :=
        (transact_phase_of_ne_reset hreset { s with host := rest }).symm.trans ht
      exact transact_fresh (s := { s with host := rest }) { hs hready with } tr

/-! ### The record of a stop (R171 to R176) -/

/-- An operation that stops records what is true, when it is the one the last-fetched word spells. -/
theorem StopsBecause.stopRecord {i : Instr} {s : State} {cause : StopCause} {info : Word}
    (h : StopsBecause s i cause info) (hd : decode s.ir = some i) (hsp : s.sp ≤ s.params.stackDepth) :
    StopRecord (s.raiseStop cause info) := by
  cases h with
  | outOfRange x y n hi =>
    refine ⟨?_, rfl, x, y, n, ?_⟩
    · exact (firstOutOfRange_toNat s.I).symm ▸ le_max_right _ _
    · rw [State.raiseStop_ir, hd]
      simpa using hi
  | allFramesLive nnn hfull => exact ⟨hsp.antisymm (not_lt.mp hfull), encode_of_decode hd, nnn, hd⟩
  | @namesNoKey _ x hi hvalue =>
    refine ⟨x, ?_, rfl, hvalue⟩
    rw [State.raiseStop_ir, hd]
    simpa using hi

theorem Completes.stopCause_eq {i : Instr} {s t : State} (h : Completes s i t) : t.stopCause = s.stopCause := by
  cases h with
  | ret => rw [popReturn_eq]
  | draw => rw [drawSprite_eq]; rfl
  | _ => rfl

theorem stopRecord_endStep {s : State} (hs : StopRecord s) : StopRecord s.endStep := by
  rw [State.endStep_eq]
  exact hs

theorem instructionStep_stopRecord {s t : State} (h : instructionStep s = .next t) (hinv : Inv s)
    (hs : StopRecord s) : StopRecord t := by
  obtain ⟨hdata, hphase⟩ := (inv_iff s).mp hinv
  rcases instructionStep_next h with
    ⟨-, rfl⟩ | ⟨-, hf, rfl⟩ | ⟨w, -, hf, hd, rfl⟩ | ⟨w, i, u, he, -, hd, hexec, rfl⟩
  · exact hs
  · exact ⟨fetchWord_none.mp hf, rfl⟩
  · exact ⟨(fetchWord_some.mp hf).1, rfl, hd⟩
  · apply stopRecord_endStep
    rcases exec_next hexec with hc | ⟨cause, info, hwhy, rfl⟩
    · exact stopRecord_of_cause_none (hc.stopCause_eq.trans (hphase.cause_none_of_enabled he))
    · exact hwhy.stopRecord hd hdata.stackFits.1.2

/-- A transaction other than Reset writes nothing a record speaks of (R162). -/
theorem transact_stopRecord {s : State} (hs : StopRecord s) (tr : Transaction) :
    StopRecord (transact tr s).1 := by
  by_cases hreset : tr = .reset
  · subst hreset
    exact stopRecord_of_cause_none rfl
  · rw [(hostWritesNoCoreState tr s hreset).1]
    exact hs

/-- Settles O5: a stop writes a true record, and nothing it speaks of changes before the next Reset. -/
theorem stopRecordStaysTrue : Obligations.StopRecordStaysTrue := fun s t hinv hs h => by
  rcases step_next h with ⟨rest, -, hstep⟩ | ⟨tr, rest, -, rfl⟩
  · exact instructionStep_stopRecord hstep { hinv with } hs
  · exact transact_stopRecord (s := { s with host := rest }) hs tr

end Sys2Proof.Machine
end

section
/-! PROOFS. Runs of many steps (R140, R181, R197, R198): the plan as a sequence of moves, a core that is
stopped, and a Return on an empty stack. -/

namespace Sys2Proof

/-! ### The host's plan (R140, R197) -/

namespace HostPlan

theorem skip_add (m n : Nat) (p : HostPlan) : skip (m + n) p = skip n (skip m p) := by
  induction m generalizing p with
  | zero => rw [Nat.zero_add, skip_zero]
  | succ m ih => rw [Nat.succ_add, skip_succ, skip_succ, ih]

theorem moves_listed (listed : List HostMove) (tail : HostTail) :
    moves listed.length ⟨listed, tail⟩ = listed := by
  induction listed with
  | nil => rfl
  | cons m rest ih => exact congrArg (m :: ·) ih

theorem skip_listed (n : Nat) (listed : List HostMove) (tail : HostTail) (h : n ≤ listed.length) :
    skip n ⟨listed, tail⟩ = ⟨listed.drop n, tail⟩ := by
  induction n generalizing listed with
  | zero => rfl
  | succ n ih =>
    cases listed with
    | nil => nomatch h
    | cons m rest => exact ih rest (Nat.le_of_succ_le_succ h)

theorem skip_length_listed (listed : List HostMove) (tail : HostTail) :
    skip listed.length ⟨listed, tail⟩ = ⟨[], tail⟩ := by
  rw [skip_listed _ _ _ le_rfl, List.drop_length]

/-- One pass of a repeating tail leads back to its beginning. -/
theorem skip_pass (first : HostMove) (others : List HostMove) :
    skip (others.length + 1) ⟨[], .repeats first others⟩ = ⟨[], .repeats first others⟩ :=
  skip_length_listed others (.repeats first others)

theorem skip_passes (q : Nat) (first : HostMove) (others : List HostMove) :
    skip ((others.length + 1) * q) ⟨[], .repeats first others⟩ = ⟨[], .repeats first others⟩ := by
  induction q with
  | zero => rfl
  | succ q ih => rw [Nat.mul_succ, skip_add, ih, skip_pass]

/-- Within a pass the moves are those of the tail, in order. -/
theorem next_skip_repeats_of_lt {r : Nat} (first : HostMove) (others : List HostMove)
    (h : r < others.length + 1) :
    (skip r ⟨[], .repeats first others⟩).next.1 = (first :: others)[r] := by
  cases r with
  | zero => rfl
  | succ r =>
    have hr : r < others.length := Nat.lt_of_succ_lt_succ h
    rw [skip_succ, next_repeats, skip_listed r others _ hr.le, List.drop_eq_getElem_cons hr]
    rfl

theorem next_skip_repeats (n : Nat) (first : HostMove) (others : List HostMove) :
    (skip n ⟨[], .repeats first others⟩).next.1 =
      (first :: others)[n % (others.length + 1)]'(Nat.mod_lt _ (Nat.succ_pos _)) := by
  rw [← next_skip_repeats_of_lt]
  conv_lhs => rw [← Nat.div_add_mod n (others.length + 1), skip_add, skip_passes]

theorem skip_free (n k : Nat) : skip n ⟨[], .free k⟩ = ⟨[], .free (k + n)⟩ := by
  induction n generalizing k with
  | zero => rfl
  | succ n ih => rw [skip_succ, next_free, ih, Nat.add_right_comm, Nat.add_assoc]

end HostPlan

namespace Machine

/-- Settles O59: a pass of a repeating tail leads back to its beginning, and a free tail counts on. -/
theorem hostPlanNeverEnds : Obligations.HostPlanNeverEnds := fun listed n =>
  ⟨fun tail => ⟨HostPlan.moves_listed listed tail, HostPlan.skip_length_listed listed tail⟩,
    HostPlan.next_skip_repeats n, fun k => by rw [HostPlan.skip_free, HostPlan.next_free]⟩

/-! ### Runs, and the transactions in them -/

theorem run_succ_of_step {M : Host.Core} {s u : M.State} (n : Nat) (h : M.step s = .next u) :
    M.run (n + 1) s = M.run n u := by
  rw [Host.Core.run, h]

theorem core_run_succ {s u : State} (n : Nat) (h : step s = .next u) : core.run (n + 1) s = core.run n u :=
  run_succ_of_step n h

/-- Outside READY a transaction other than Reset writes the timers and the keys at most (R161, R162). -/
theorem step_issue_of_ne_ready {s : State} {tr : Transaction} {rest : HostPlan}
    (hnext : s.host.next = (.issue tr, rest)) (hreset : tr ≠ .reset) (hready : s.phase ≠ .ready) :
    ∃ dt st K, step s = .next { s with dt := dt, st := st, K := K, host := rest } := by
  obtain ⟨heq, -, hloads⟩ := hostWritesNoCoreState tr { s with host := rest } hreset
  obtain ⟨hmem, hfont⟩ := hloads hready
  rw [hmem, hfont] at heq
  exact ⟨_, _, _, (step_issue hnext).trans (congrArg Host.Outcome.next heq)⟩

/-- The next move of a plan and what is left of it, when Reset is none of the next moves. -/
theorem not_mem_moves_succ {m : HostMove} {n : Nat} {p : HostPlan} (h : m ∉ p.moves (n + 1)) :
    p.next.1 ≠ m ∧ m ∉ p.next.2.moves n := by
  rw [HostPlan.moves_succ, List.mem_cons, not_or] at h
  exact ⟨Ne.symm h.1, h.2⟩

/-! ### STOPPED (R181) -/

theorem step_of_stopped {s : State} (hs : s.phase = .stopped) (hmove : s.host.next.1 ≠ .issue .reset) :
    ∃ dt st K, step s = .next { s with dt := dt, st := st, K := K, host := s.host.next.2 } := by
  cases hnext : s.host.next with
  | mk move rest =>
    rw [hnext] at hmove
    cases move with
    | permitStep => exact ⟨s.dt, s.st, s.K, hostMoveIsOneStep.2 rest s hnext hs⟩
    | issue tr =>
      exact step_issue_of_ne_ready hnext (fun htr => hmove (htr ▸ rfl)) (by rw [hs]; decide)

/-- Settles O15: each step in STOPPED changes the timers, the keys and the plan at most, and stays there. -/
theorem onlyResetLeavesStopped : Obligations.OnlyResetLeavesStopped := by
  intro n
  induction n with
  | zero =>
    intro s t _ _ h
    cases h
    rfl
  | succ n ih =>
    intro s t hs hmoves h
    obtain ⟨hmove, hrest⟩ := not_mem_moves_succ hmoves
    obtain ⟨dt, st, K, hstep⟩ := step_of_stopped hs hmove
    exact ih { s with dt := dt, st := st, K := K, host := s.host.next.2 } t hs hrest
      ((core_run_succ n hstep).symm.trans h)

/-! ### A Return on an empty stack (R70, R198) -/

/-- The next word is a Return and no frame is live. -/
structure AtEmptyReturn (s : State) : Prop where
  empty : s.sp = 0
  inBounds : s.pc.toNat ≤ 0x0FFE
  high : Memory.read s.mem s.pc.toNat = 0x00#8
  low : Memory.read s.mem (s.pc.toNat + 1) = 0xEE#8

namespace AtEmptyReturn

/-- A permitted step executes the Return, which does nothing. -/
theorem step_permit {s : State} {rest : HostPlan} (hs : AtEmptyReturn s)
    (hnext : s.host.next = (.permitStep, rest)) (hphase : s.phase = .ready ∨ s.phase = .fetch) :
    step s = .next { s with host := rest, ir := 0x00EE#16, irValid := true, phase := .fetch } := by
  have hword : 0x00EE#16 = Memory.read s.mem s.pc.toNat ++ Memory.read s.mem (s.pc.toNat + 1) := by
    rw [hs.high, hs.low]
    rfl
  have hexec : exec .ret { s with host := rest, ir := 0x00EE#16, irValid := true, phase := .execute } =
      .next { s with host := rest, ir := 0x00EE#16, irValid := true, phase := .execute } :=
    congrArg Host.Outcome.next (popReturn_empty hs.empty)
  exact stepRunsTheDecodedOperation s rest 0x00EE#16 .ret _ hnext hphase hs.inBounds hword rfl hexec

theorem run_permit {s : State} (n : Nat) (hs : AtEmptyReturn s)
    (hmoves : ∀ move ∈ s.host.moves (n + 1), move = .permitStep) (hphase : s.phase = .ready ∨ s.phase = .fetch) :
    core.run (n + 1) s = .next
      { s with host := s.host.skip (n + 1), ir := 0x00EE#16, irValid := true, phase := .fetch } := by
  induction n generalizing s with
  | zero =>
    obtain ⟨hmove, -⟩ := List.forall_mem_cons.mp hmoves
    exact core_run_succ 0 (hs.step_permit (Prod.ext hmove rfl) hphase)
  | succ n ih =>
    obtain ⟨hmove, hrest⟩ := List.forall_mem_cons.mp hmoves
    exact (core_run_succ (n + 1) (hs.step_permit (Prod.ext hmove rfl) hphase)).trans
      (ih { hs with } hrest (.inr rfl))

/-- From FETCH a step that is no Reset changes the timers, the keys and the last-fetched word at most. -/
theorem step_fetch {s : State} (hs : AtEmptyReturn s) (hphase : s.phase = .fetch)
    (hmove : s.host.next.1 ≠ .issue .reset) :
    ∃ dt st K ir irValid,
      step s = .next { s with dt := dt, st := st, K := K, ir := ir, irValid := irValid, host := s.host.next.2 } ∧
      (ir = s.ir ∧ irValid = s.irValid ∨ ir = 0x00EE#16 ∧ irValid = true) := by
  cases hnext : s.host.next with
  | mk move rest =>
    rw [hnext] at hmove
    cases move with
    | permitStep =>
      have hstep := hs.step_permit hnext (.inr hphase)
      rw [← hphase] at hstep
      exact ⟨s.dt, s.st, s.K, 0x00EE#16, true, hstep, .inr ⟨rfl, rfl⟩⟩
    | issue tr =>
      have hready : s.phase ≠ .ready := by rw [hphase]; decide
      obtain ⟨dt, st, K, hstep⟩ := step_issue_of_ne_ready hnext (fun htr => hmove (htr ▸ rfl)) hready
      exact ⟨dt, st, K, s.ir, s.irValid, hstep, .inl ⟨rfl, rfl⟩⟩

theorem run_fetch {s : State} (n : Nat) (hs : AtEmptyReturn s) (hmoves : .issue .reset ∉ s.host.moves n)
    (hphase : s.phase = .fetch) : ∃ t, core.run n s = .next t ∧
      t = { s with dt := t.dt, st := t.st, K := t.K, ir := t.ir, irValid := t.irValid, host := s.host.skip n } ∧
      (t.ir = s.ir ∧ t.irValid = s.irValid ∨ t.ir = 0x00EE#16 ∧ t.irValid = true) := by
  induction n generalizing s with
  | zero => exact ⟨s, rfl, rfl, .inl ⟨rfl, rfl⟩⟩
  | succ n ih =>
    obtain ⟨hmove, hrest⟩ := not_mem_moves_succ hmoves
    obtain ⟨dt, st, K, ir, irValid, hstep, hir⟩ := hs.step_fetch hphase hmove
    obtain ⟨t, hrun, ht, htir⟩ :=
      ih (s := { s with dt := dt, st := st, K := K, ir := ir, irValid := irValid, host := s.host.next.2 })
        { hs with } hrest hphase
    refine ⟨t, (core_run_succ n hstep).trans hrun, ht, ?_⟩
    rcases htir with ⟨hkeep, hkeep'⟩ | hret
    · rw [hkeep, hkeep']
      exact hir
    · exact .inr hret

end AtEmptyReturn

/-- Settles O16: the one step repeated, over permissions only and over any moves but Reset. -/
theorem emptyReturnRepeatsForEver : Obligations.EmptyReturnRepeatsForEver := fun s hsp hpc hhigh hlow =>
  have hs : AtEmptyReturn s := ⟨hsp, hpc, hhigh, hlow⟩
  ⟨fun _ => hs.step_permit, fun n => hs.run_permit n, fun n => hs.run_fetch n⟩

end Machine

end Sys2Proof
end

section
/-! PROOFS. Canonical memory (log entry 13): the listed addresses are those that read as written, so the
readings determine the list. -/

namespace Sys2Proof.Machine

namespace Memory

theorem read_head (k : Nat) (c : Byte) (m : Memory) : read ((k, c) :: m) k = c := if_pos rfl

/-- The first listed address reads as written, so a memory that reads the same lists one that low. -/
theorem not_head_lt_of_read_eq {lo lo' k : Nat} {c : Byte} {m n : Memory}
    (hm : wfFrom lo ((k, c) :: m) = true) (hn : wfFrom lo' n = true) (h : ∀ a, read ((k, c) :: m) a = read n a) : ¬ k < lo' := fun hlt => by
  obtain ⟨-, -, hc, -⟩ := wfFrom_cons.mp hm
  exact hc ((read_head k c m).symm.trans ((h k).trans (read_below hn hlt)))

theorem eq_of_read_eq {lo lo' : Nat} {m n : Memory} (hm : wfFrom lo m = true) (hn : wfFrom lo' n = true)
    (h : ∀ a, read m a = read n a) : m = n := by
  induction m generalizing lo lo' n with
  | nil =>
    cases n with
    | nil => rfl
    | cons e n =>
      exact absurd e.1.lt_succ_self (not_head_lt_of_read_eq hn (lo' := e.1 + 1) rfl fun a => (h a).symm)
  | cons e m ih =>
    obtain ⟨k, c⟩ := e
    cases n with
    | nil => exact absurd k.lt_succ_self (not_head_lt_of_read_eq hm (lo' := k + 1) rfl h)
    | cons e' n =>
      obtain ⟨k', c'⟩ := e'
      obtain ⟨-, hk, hc, hm'⟩ := wfFrom_cons.mp hm
      obtain ⟨-, hk', hc', hn'⟩ := wfFrom_cons.mp hn
      have hge := not_head_lt_of_read_eq hm (wfFrom_cons.mpr ⟨le_refl k', hk', hc', hn'⟩) h
      have hle := not_head_lt_of_read_eq hn (wfFrom_cons.mpr ⟨le_refl k, hk, hc, hm'⟩) fun a => (h a).symm
      obtain rfl : k = k' := by omega
      obtain rfl : c = c' := by rw [← read_head k c m, h, read_head]
      congr 1
      refine ih hm' hn' fun a => ?_
      by_cases ha : a < k + 1
      · rw [read_below hm' ha, read_below hn' ha]
      · have hne : k ≠ a := by omega
        have ha' := h a
        rwa [read_cons, read_cons, if_neg hne, if_neg hne] at ha'

end Memory

/-- Settles O35: above the address space canonical memories read as unwritten, so these read the same at every
address. -/
theorem canonicalMemoryIsUnique : Obligations.CanonicalMemoryIsUnique := fun m n hm hn h => by
  refine Memory.eq_of_read_eq hm hn fun a => ?_
  by_cases ha : a < Config.memSize
  · exact h a ha
  · rw [Memory.read_above hm (not_lt.mp ha), Memory.read_above hn (not_lt.mp ha)]

end Sys2Proof.Machine
end

section
/-! PROOFS. Drawing a sprite (spec/43_display.md, R106 to R108, R112): a draw is the XOR of its cells one after
the other, and a sprite's cells lie on pixels of their own, so that each pixel is written once at most. -/

namespace Sys2Proof.Machine

/-! ### Cells of a sprite -/

/-- A bit of a sprite and the coordinates it is drawn at, not yet wrapped. -/
structure SpriteCell where
  column : Nat
  row : Nat
  bit : Bool

/-- The coordinates name the pixel of the cell (R106). -/
abbrev SpriteCell.Hits (p : SpriteCell) (c r : Nat) : Prop :=
  c % Config.displayWidth = p.column % Config.displayWidth ∧
    r % Config.displayHeight = p.row % Config.displayHeight

/-- No two of the cells are on one pixel. -/
def PixelsApart (cells : List SpriteCell) : Prop := cells.Pairwise fun p q => ¬ p.Hits q.column q.row

/-- The cells of the sprite rows from display row `Y` down, in the order they are drawn (R107). -/
def spriteCells (X : Nat) : Nat → List Byte → List SpriteCell
  | _, [] => []
  | Y, row :: rows =>
    (List.range 8).map (fun i => ⟨X + i, Y, spriteBit row i⟩) ++ spriteCells X (Y + 1) rows

/-- XOR the cells into the framebuffer, one after the other. -/
def xorCells (cells : List SpriteCell) (d : Framebuffer × Bool) : Framebuffer × Bool :=
  cells.foldl (fun d p => xorPixel p.column p.row p.bit d) d

theorem xorCells_cons (p : SpriteCell) (cells : List SpriteCell) (d : Framebuffer × Bool) :
    xorCells (p :: cells) d = xorCells cells (xorPixel p.column p.row p.bit d) := rfl

theorem drawRows_eq_xorCells (X Y : Nat) (rows : List Byte) (d : Framebuffer × Bool) :
    drawRows X Y rows d = xorCells (spriteCells X Y rows) d := by
  induction rows generalizing Y d with
  | nil => rfl
  | cons row rows ih =>
    rw [drawRows_cons, ih, spriteCells, xorCells, xorCells, List.foldl_append, List.foldl_map, drawRow]

theorem mem_spriteCells {X Y : Nat} {rows : List Byte} {p : SpriteCell} :
    p ∈ spriteCells X Y rows ↔
      ∃ (j i : Nat) (h : j < rows.length), i < 8 ∧ p = ⟨X + i, Y + j, spriteBit rows[j] i⟩ := by
  induction rows generalizing Y with
  | nil => simp [spriteCells]
  | cons row rows ih =>
    simp only [spriteCells, List.mem_append, List.mem_map, List.mem_range, ih]
    constructor
    · rintro (⟨i, hi, rfl⟩ | ⟨j, i, hj, hi, rfl⟩)
      · exact ⟨0, i, Nat.succ_pos _, hi, rfl⟩
      · exact ⟨j + 1, i, Nat.succ_lt_succ hj, hi, by rw [Nat.add_right_comm, Nat.add_assoc]; rfl⟩
    · rintro ⟨j, i, hj, hi, rfl⟩
      cases j with
      | zero => exact .inl ⟨i, hi, rfl⟩
      | succ j => exact .inr ⟨j, i, Nat.lt_of_succ_lt_succ hj, hi, by rw [Nat.add_right_comm, Nat.add_assoc]; rfl⟩

/-- A row is narrower than the display, so a sprite at most as high as the display does not meet itself. -/
theorem pixelsApart_spriteCells {X Y : Nat} {rows : List Byte} (h : rows.length ≤ Config.displayHeight) :
    PixelsApart (spriteCells X Y rows) := by
  induction rows generalizing Y with
  | nil => exact .nil
  | cons row rows ih =>
    rw [List.length_cons] at h
    rw [PixelsApart, spriteCells, List.pairwise_append]
    refine ⟨?_, ih (by omega), ?_⟩
    · rw [List.pairwise_map]
      refine List.pairwise_lt_range.imp_of_mem fun {i k} hi hk hik hits => ?_
      rw [List.mem_range] at hi hk
      have hcolumn : (X + k) % 64 = (X + i) % 64 := hits.1
      omega
    · intro p hp q hq hits
      obtain ⟨i, -, rfl⟩ := List.mem_map.mp hp
      obtain ⟨j, k, hj, -, rfl⟩ := mem_spriteCells.mp hq
      have hrow : (Y + 1 + j) % 32 = Y % 32 := hits.2
      have hheight : rows.length + 1 ≤ 32 := h
      omega

/-! ### One pixel after all cells -/

theorem getPixel_of_hits {p : SpriteCell} {c r : Nat} (h : p.Hits c r) (fb : Framebuffer) :
    getPixel fb c r = getPixel fb p.column p.row := by
  rw [getPixel_mod fb c r, h.1, h.2, ← getPixel_mod]

theorem SpriteCell.Hits.symm {p q : SpriteCell} (h : p.Hits q.column q.row) : q.Hits p.column p.row :=
  ⟨h.1.symm, h.2.symm⟩

theorem getPixel_xorPixel_of_not_hits {p : SpriteCell} {c r : Nat} (h : ¬ p.Hits c r) (d : Framebuffer × Bool) :
    getPixel (xorPixel p.column p.row p.bit d).1 c r = getPixel d.1 c r := by
  rw [getPixel_xorPixel, decide_eq_false h, Bool.and_false, Bool.xor_false]

theorem getPixel_xorPixel_self (p : SpriteCell) (d : Framebuffer × Bool) :
    getPixel (xorPixel p.column p.row p.bit d).1 p.column p.row = (getPixel d.1 p.column p.row ^^ p.bit) := by
  rw [getPixel_xorPixel, decide_eq_true ⟨rfl, rfl⟩, Bool.and_true]

theorem getPixel_xorCells_of_no_hit {cells : List SpriteCell} {c r : Nat} (h : ∀ p ∈ cells, ¬ p.Hits c r)
    (d : Framebuffer × Bool) : getPixel (xorCells cells d).1 c r = getPixel d.1 c r := by
  induction cells generalizing d with
  | nil => rfl
  | cons q cells ih =>
    obtain ⟨hq, hcells⟩ := List.forall_mem_cons.mp h
    rw [xorCells_cons, ih hcells, getPixel_xorPixel_of_not_hits hq]

theorem getPixel_xorCells_of_mem {cells : List SpriteCell} {p : SpriteCell} (hapart : PixelsApart cells) (hp : p ∈ cells) (d : Framebuffer × Bool) :
    getPixel (xorCells cells d).1 p.column p.row = (getPixel d.1 p.column p.row ^^ p.bit) := by
  induction cells generalizing d with
  | nil => nomatch hp
  | cons q cells ih =>
    obtain ⟨hq, hcells⟩ := List.pairwise_cons.mp hapart
    rw [xorCells_cons]
    rcases List.mem_cons.mp hp with rfl | hmem
    · rw [getPixel_xorCells_of_no_hit fun q' hq' hits => hq q' hq' hits.symm, getPixel_xorPixel_self]
    · rw [ih hcells hmem, getPixel_xorPixel_of_not_hits (hq p hmem)]

/-- The signal is set when it was, or when a set bit hits a pixel that was set before all cells (R108). -/
theorem collision_xorCells {cells : List SpriteCell} (hapart : PixelsApart cells) (d : Framebuffer × Bool) :
    (xorCells cells d).2 = true ↔
      d.2 = true ∨ ∃ p ∈ cells, getPixel d.1 p.column p.row = true ∧ p.bit = true := by
  induction cells generalizing d with
  | nil => simp [xorCells]
  | cons q cells ih =>
    obtain ⟨hq, hcells⟩ := List.pairwise_cons.mp hapart
    have hkept :
        (∃ p ∈ cells, getPixel (xorPixel q.column q.row q.bit d).1 p.column p.row = true ∧ p.bit = true) ↔
          ∃ p ∈ cells, getPixel d.1 p.column p.row = true ∧ p.bit = true :=
      exists_congr fun p => and_congr_right fun hp => by rw [getPixel_xorPixel_of_not_hits (hq p hp)]
    rw [xorCells_cons, ih hcells, hkept, collision_xorPixel, Bool.or_eq_true, Bool.and_eq_true, or_assoc,
      List.exists_mem_cons_iff]

/-! ### The draw function (R107, R108, R112) -/

theorem draw_eq_xorCells (fb : Framebuffer) (X Y : Nat) (rows : List Byte) :
    draw fb X Y rows = xorCells (spriteCells X Y rows) (fb, false) :=
  drawRows_eq_xorCells X Y rows (fb, false)

/-- Settles O37: each clause is the law of `xorCells` for the cells of the sprite. -/
theorem drawXorsEachSpriteBit : Obligations.DrawXorsEachSpriteBit := fun fb X Y rows hrows => by
  have hapart : PixelsApart (spriteCells X Y rows) := pixelsApart_spriteCells (hrows.trans (by decide))
  rw [draw_eq_xorCells]
  refine ⟨fun j i hj hi => ?_, fun c r hmiss => ?_, ?_⟩
  · exact getPixel_xorCells_of_mem hapart (mem_spriteCells.mpr ⟨j, i, hj, hi, rfl⟩) (fb, false)
  · refine getPixel_xorCells_of_no_hit (fun p hp => ?_) (fb, false)
    obtain ⟨j, i, hj, hi, rfl⟩ := mem_spriteCells.mp hp
    exact hmiss j i hj hi
  · rw [collision_xorCells hapart]
    constructor
    · rintro (hfalse | ⟨p, hp, hset, hbit⟩)
      · nomatch hfalse
      · obtain ⟨j, i, hj, hi, rfl⟩ := mem_spriteCells.mp hp
        exact ⟨j, i, hj, hi, hset, hbit⟩
    · rintro ⟨j, i, hj, hi, hset, hbit⟩
      exact .inr ⟨_, mem_spriteCells.mpr ⟨j, i, hj, hi, rfl⟩, hset, hbit⟩

/-- Settles O38: a pixel the sprite hits is XORed twice with one bit, any other is written by neither draw; a
set bit finds a pixel set at the second draw exactly where it was unset before the first. -/
theorem drawingTwiceRestores : Obligations.DrawingTwiceRestores := fun fb X Y rows hrows => by
  obtain ⟨honce, hmissOnce, -⟩ := drawXorsEachSpriteBit fb X Y rows hrows
  obtain ⟨htwice, hmissTwice, hsignal⟩ := drawXorsEachSpriteBit (draw fb X Y rows).1 X Y rows hrows
  constructor
  · refine framebuffer_ext fun c r => ?_
    by_cases hhit : ∃ p ∈ spriteCells X Y rows, p.Hits c r
    · obtain ⟨p, hp, hits⟩ := hhit
      obtain ⟨j, i, hj, hi, rfl⟩ := mem_spriteCells.mp hp
      rw [getPixel_of_hits hits, getPixel_of_hits hits, htwice j i hj hi, honce j i hj hi, Bool.xor_assoc,
        Bool.xor_self, Bool.xor_false]
    · have hmiss : ∀ j i, j < rows.length → i < 8 → ¬ (c % 64 = (X + i) % 64 ∧ r % 32 = (Y + j) % 32) :=
        fun j i hj hi hits => hhit ⟨_, mem_spriteCells.mpr ⟨j, i, hj, hi, rfl⟩, hits⟩
      rw [hmissTwice c r hmiss, hmissOnce c r hmiss]
  · rw [hsignal]
    refine exists_congr fun j => exists_congr fun i => exists_congr fun hj => and_congr_right fun hi =>
      and_congr_left fun hbit => ?_
    rw [honce j i hj hi, hbit, Bool.xor_true, Bool.not_eq_true']

end Sys2Proof.Machine
end
